-- ==== Sys2Proof/Word.lean ====
section
/-! DEFINITION. The word types of the block and the grouping of a value per rotary axis (00_scope.md R8, section 7). -/

namespace Sys2Proof

/-- A byte, 0..255: what crosses the bus and the encoder port (00_scope.md section 7, 20_memory.md R52). -/
abbrev Byte := BitVec 8

/-- A position counter's value, `POSW` = 16 bits, unsigned (00_scope.md R8, 10_state.md R20). -/
abbrev Count := BitVec 16

/-- A quadrature reading, `ENCW` = 2 bits (00_scope.md R8, 10_state.md R28). -/
abbrev Quad := BitVec 2

/-- The `NAXES` = 3 rotary axes (00_scope.md R8). -/
inductive Axis where
  | a
  | b
  | c
  deriving DecidableEq, Repr

/-- One value for each of the three axes. -/
structure PerAxis (α : Type) where
  a : α
  b : α
  c : α
  deriving DecidableEq, Repr

/-- The value of one axis: `pos[X]`, `enc[X]` of the spec. -/
def PerAxis.get {α : Type} (v : PerAxis α) : Axis → α
  | .a => v.a
  | .b => v.b
  | .c => v.c

end Sys2Proof
end

