-- ==== Sys2Proof/Config.lean ====
section
/-! DEFINITION. The parameters the source leaves open (00_scope.md R9), as a record, and the record of the block this
model runs: the spec's own defaults, with the error colour left free. -/

namespace Sys2Proof

/-- A colour, three literal bytes (30_encoding.md R85). -/
structure Rgb where
  r : Byte
  g : Byte
  b : Byte
  deriving DecidableEq, Repr, Inhabited

/-- `POL`, the sign of the transition table (40_quadrature_decoder.md R113). -/
inductive Polarity where
  | plus
  | minus
  deriving DecidableEq, Repr

/-- `POL` as the factor +1 or -1. -/
def Polarity.sign : Polarity → Int
  | .plus => 1
  | .minus => -1

/-- The parameters of 00_scope.md R9. `slaveAddr` is used by no rule (D9). -/
structure Config where
  /-- `SH_A`, `SH_B`, `SH_C`: where each axis's pair stands in the port byte (D3). -/
  shift : PerAxis (Fin 7)
  /-- `POL` (D5). -/
  pol : Polarity
  /-- `OPC_MOTOR_SPEED_SET` (D8). -/
  opcMotorSpeedSet : Byte
  /-- `OPC_SET_SOLID_COLOUR` (D8). -/
  opcSetSolidColour : Byte
  /-- `OPC_ENCODER_READ` (D8). -/
  opcEncoderRead : Byte
  /-- `SLAVE_ADDR` (D9). -/
  slaveAddr : Nat
  /-- `ERR_RGB` (D20). -/
  errRgb : Rgb
  /-- `SNAPSHOT_COHERENT` (D14). -/
  snapshotCoherent : Bool
  deriving DecidableEq, Repr

/-- Two 2-bit groups of the port byte share no bit. -/
abbrev groupsDisjoint (x y : Fin 7) : Prop := x.val + 2 ≤ y.val ∨ y.val + 2 ≤ x.val

/-- The constraint column of 00_scope.md R9: disjoint pin groups; opcodes pairwise distinct, none 0xFF. -/
abbrev Config.Admissible (cfg : Config) : Prop :=
  groupsDisjoint cfg.shift.a cfg.shift.b ∧ groupsDisjoint cfg.shift.a cfg.shift.c ∧
  groupsDisjoint cfg.shift.b cfg.shift.c ∧
  cfg.opcMotorSpeedSet ≠ cfg.opcSetSolidColour ∧ cfg.opcMotorSpeedSet ≠ cfg.opcEncoderRead ∧
  cfg.opcSetSolidColour ≠ cfg.opcEncoderRead ∧
  cfg.opcMotorSpeedSet ≠ 0xFF ∧ cfg.opcSetSolidColour ≠ 0xFF ∧ cfg.opcEncoderRead ≠ 0xFF

/-- FREE VALUE: the error colour. The source says it is fixed and gives no value, and the spec leaves it OPEN with no
default (D20), so it has no body. Log entry 4 (DESIGN CHOICE). -/
opaque Config.freeErrRgb : Rgb

/-- The block `exec` runs: every parameter at the spec's default (00_scope.md R9), the error colour free. Log entry 3 (PRESUMED). -/
def Config.chip : Config where
  shift := ⟨2, 4, 6⟩
  pol := .plus
  opcMotorSpeedSet := 0x20
  opcSetSolidColour := 0x21
  opcEncoderRead := 0x22
  slaveAddr := 0x70
  errRgb := Config.freeErrRgb
  snapshotCoherent := true

end Sys2Proof
end

