-- ==== Sys2Proof/Syntax.lean ====
section
/-! DEFINITION. The operations of the block: one constructor per row of spec/opcode_table.json (00_scope.md R10). -/

namespace Sys2Proof

/-- The block runs no program; its "instructions" are the four bus commands DISPATCH decodes, the four event
operations, the pure function DIFF and RESET (00_scope.md R10). -/
inductive Instr where
  /-- MOTOR_SPEED_SET: biased speeds of channels 0, 1, 2 and the checksum byte (format F5, 30_encoding.md R81, R84). -/
  | motorSpeedSet (a b c k : Byte)
  /-- SET_SOLID_COLOUR: red, green, blue and the checksum byte (format F5, 30_encoding.md R81, R85). -/
  | setSolidColour (r g b k : Byte)
  /-- ENCODER_READ: no operand, `cmd[1..4]` ignored (format F1, 30_encoding.md R82). -/
  | encoderRead
  /-- UNRECOGNIZED: any opcode byte that is none of the three (format FU, 30_encoding.md R83). -/
  | unrecognized (o : Byte)
  /-- DISPATCH: the dispatcher's step, no operand (43_command_dispatcher.md R170). -/
  | dispatch
  /-- BUS_WRITE(w): the bytes of one write transaction, first on the bus first (42_bus_transport.md R151). -/
  | busWrite (w : List Byte)
  /-- BUS_READ(): one read transaction (42_bus_transport.md R156). -/
  | busRead
  /-- SAMPLE(p): the port byte of one pin-change interrupt (40_quadrature_decoder.md R116). -/
  | sample (p : Byte)
  /-- DIFF(a, b): earlier and later counter reading (41_position_counters.md R131). -/
  | diff (a b : Count)
  /-- RESET: start-up (70_reset_and_hazards.md R230). -/
  | reset
  deriving DecidableEq, Repr

end Sys2Proof
end

