-- ==== Sys2Proof/WellFormed.lean ====
section
/-! DEFINITION. Which operations the spec admits: the only operand the spec bounds is the opcode byte of UNRECOGNIZED
(30_encoding.md R83, R87). -/

namespace Sys2Proof

/-- The byte is one of the three defined opcodes (30_encoding.md R87). -/
def Config.isOpcode (cfg : Config) (o : Byte) : Bool :=
  o == cfg.opcMotorSpeedSet || o == cfg.opcSetSolidColour || o == cfg.opcEncoderRead

/-- Every operand has the range the spec gives it. Every payload, checksum, port and counter value is legal (30_encoding.md
R84, R85; D32); UNRECOGNIZED carries a byte that equals none of the three opcodes (43_command_dispatcher.md R180). -/
def Instr.wellFormed (cfg : Config) : Instr → Bool
  | .motorSpeedSet _ _ _ _ => true
  | .setSolidColour _ _ _ _ => true
  | .encoderRead => true
  | .unrecognized o => !cfg.isOpcode o
  | .dispatch => true
  | .busWrite _ => true
  | .busRead => true
  | .sample _ => true
  | .diff _ _ => true
  | .reset => true

end Sys2Proof
end

