-- ==== Sys2Proof/Decode.lean ====
section
/-! DEFINITION. Decoding and encoding: the command frame (30_encoding.md R80 to R88), the operand layouts of the event
operations and of DIFF (spec/opcode_table.json), and the spelling of frames with their checksum (30_encoding.md R94). -/

namespace Sys2Proof

/-- The content of `cmd[0..4]` at a DISPATCH step (30_encoding.md R80); `MAX_SENT_BYTES` = 5. -/
abbrev Frame := Vector Byte 5

/-- The opcode map (30_encoding.md R87): on `frame[0]` alone, all eight bits, by equality. Total: every byte selects one row
(R88), so nothing is rejected. -/
def decodeFrame (cfg : Config) (frame : Frame) : Instr :=
  if frame[0] = cfg.opcMotorSpeedSet then .motorSpeedSet frame[1] frame[2] frame[3] frame[4]
  else if frame[0] = cfg.opcSetSolidColour then .setSolidColour frame[1] frame[2] frame[3] frame[4]
  else if frame[0] = cfg.opcEncoderRead then .encoderRead
  else .unrecognized frame[0]

/-- The frame of a F5 command: opcode, three payload bytes, checksum byte (30_encoding.md R81). -/
def frameF5 (op p1 p2 p3 ck : Byte) : Frame := #v[op, p1, p2, p3, ck]

/-- A frame of which only the opcode is read (F1 and FU, 30_encoding.md R82, R83); the four ignored bytes are written as
zeros. Log entry 25 (DEDUCED). -/
def frameOpcodeOnly (op : Byte) : Frame := #v[op, 0, 0, 0, 0]

/-- What reaches the block, tagged with where it comes from: the three input events and their operand (D2), the content of
the command buffer, the dispatcher's poll, and the operand pair of DIFF. -/
inductive Code where
  /-- `cmd[0..4]`, decoded by DISPATCH. -/
  | frame (bytes : Frame)
  /-- The dispatcher's turn. -/
  | poll
  /-- A bus write transaction. -/
  | transaction (bytes : List Byte)
  /-- A bus read transaction. -/
  | readRequest
  /-- The port byte of a pin-change interrupt. -/
  | port (p : Byte)
  /-- DIFF's operands as spec/opcode_table.json lays them out: `a` in bits 31:16, `b` in bits 15:0. -/
  | readings (bits : BitVec 32)
  /-- Start-up. -/
  | startUp
  deriving DecidableEq, Repr

/-- The operation a code stands for. Total, like the opcode map (30_encoding.md R88). -/
def decode (cfg : Config) : Code → Instr
  | .frame bytes => decodeFrame cfg bytes
  | .poll => .dispatch
  | .transaction bytes => .busWrite bytes
  | .readRequest => .busRead
  | .port p => .sample p
  | .readings bits => .diff (bits.extractLsb' 16 16) (bits.extractLsb' 0 16)
  | .startUp => .reset

/-- The code of an operation, from the same tables as `decode`. -/
def encode (cfg : Config) : Instr → Code
  | .motorSpeedSet a b c k => .frame (frameF5 cfg.opcMotorSpeedSet a b c k)
  | .setSolidColour r g b k => .frame (frameF5 cfg.opcSetSolidColour r g b k)
  | .encoderRead => .frame (frameOpcodeOnly cfg.opcEncoderRead)
  | .unrecognized o => .frame (frameOpcodeOnly o)
  | .dispatch => .poll
  | .busWrite w => .transaction w
  | .busRead => .readRequest
  | .sample p => .port p
  | .diff a b => .readings (a ++ b)
  | .reset => .startUp

/-- Byte `i` of a frame of the opcode table, counted from the byte first on the bus, which the table puts in the most
significant bits ("bits 39:32 = cmd[0]"). -/
def tableFrameByte (nbits w i : Nat) : Byte := BitVec.ofNat 8 (w >>> (nbits - 8 * (i + 1)))

/-- A word of the opcode table as the code it stands for: a 40-bit or an 8-bit frame (bytes the row does not give are
zero), or DIFF's 32-bit operand pair; no other width stands in the table. Log entry 25 (DEDUCED). -/
def codeOfTableWord (nbits w : Nat) : Option Code :=
  match nbits with
  | 40 => some (.frame (frameF5 (tableFrameByte 40 w 0) (tableFrameByte 40 w 1) (tableFrameByte 40 w 2)
      (tableFrameByte 40 w 3) (tableFrameByte 40 w 4)))
  | 8 => some (.frame (frameOpcodeOnly (tableFrameByte 8 w 0)))
  | 32 => some (.readings (BitVec.ofNat 32 w))
  | _ => none

/-- The operation the decoder reads from a word of the opcode table, numbered as the table numbers it. -/
def decodeTableWord (nbits w : Nat) : Option Instr :=
  (codeOfTableWord nbits w).map (decode Config.chip)

/-- `MOTOR_SPEED_SET b1, b2, b3`: the write transaction with its checksum (30_encoding.md R94). -/
def motorSpeedSetBytes (cfg : Config) (b1 b2 b3 : Byte) : List Byte :=
  [cfg.opcMotorSpeedSet, b1, b2, b3, cfg.opcMotorSpeedSet ^^^ b1 ^^^ b2 ^^^ b3]

/-- `MOTOR_SPEED_SET.S s0, s1, s2`: the same from signed speeds, `bk = sk + 128` (30_encoding.md R94). -/
def motorSpeedSetSignedBytes (cfg : Config) (s0 s1 s2 : Int) : List Byte :=
  motorSpeedSetBytes cfg (BitVec.ofInt 8 (s0 + 128)) (BitVec.ofInt 8 (s1 + 128)) (BitVec.ofInt 8 (s2 + 128))

/-- `SET_SOLID_COLOUR r, g, b` (30_encoding.md R94). -/
def setSolidColourBytes (cfg : Config) (r g b : Byte) : List Byte :=
  [cfg.opcSetSolidColour, r, g, b, cfg.opcSetSolidColour ^^^ r ^^^ g ^^^ b]

/-- `ENCODER_READ` (30_encoding.md R94). -/
def encoderReadBytes (cfg : Config) : List Byte := [cfg.opcEncoderRead]

/-- `STOP` = `RAW 0xFF`, an unrecognized opcode under every admissible configuration (30_encoding.md R94, R89). -/
def stopBytes : List Byte := [0xFF]

end Sys2Proof
end

