-- ==== Sys2Proof/Machine/State.lean ====
section
/-! DEFINITION. The state of the machine: the 19 registers of 10_state.md, the observation of 00_scope.md R12, and the
inputs still to be served; the reasons a step could stop; the state after reset (70_reset_and_hazards.md R230). -/

namespace Sys2Proof.Machine

/-- An output event (00_scope.md R12). -/
inductive OutEvent where
  /-- `Motor(ch, s)`: channels 0, 1, 2; a signed speed, -128..127 (43_command_dispatcher.md R175, R178). -/
  | motor (ch : Fin 3) (speed : Int)
  /-- `LightSolid(r, g, b)` (R177, R181). -/
  | lightSolid (colour : Rgb)
  /-- `LightMotorPattern(p1, p2, p3)`: the three raw payload bytes (R175; D19). -/
  | lightMotorPattern (p1 p2 p3 : Byte)
  deriving DecidableEq, Repr

/-- One entry of the run's total order of steps (20_memory.md R63): an event the environment issues (D2), the dispatcher's
turn, or a use of the pure function DIFF. The four bus commands are no entries: only DISPATCH runs them. -/
inductive Event where
  | sample (p : Byte)
  | busWrite (w : List Byte)
  | busRead
  | dispatch
  | diff (a b : Count)
  | reset
  deriving DecidableEq, Repr

/-- The port bytes of the SAMPLE steps that fall after the copy of C and after the copy of B inside the next ENCODER_READ.
Read only where `SNAPSHOT_COHERENT` is false (20_memory.md R56). Log entry 12 (DESIGN CHOICE). -/
structure MidCopy where
  afterC : List Byte
  afterB : List Byte
  deriving DecidableEq, Repr

/-- Everything the machine holds. -/
structure State where
  /-- `pos[A..C]`, the position counters (10_state.md R20). -/
  pos : PerAxis Count
  /-- `enc[A..C]`, the retained quadrature readings (10_state.md R28). -/
  enc : PerAxis Quad
  /-- `cmd[0..4]`, the command buffer (10_state.md R29). -/
  cmd : Frame
  /-- `nd`, the new-data flag (10_state.md R25). -/
  nd : Bool
  /-- `snap[0..5]`, the snapshot buffer, `SNAPLEN` = 6 (10_state.md R30). -/
  snap : Vector Byte 6
  /-- `cur`, the read cursor, an integer 0..6 (10_state.md R31). Log entry 26 (DESIGN CHOICE). -/
  cur : Nat
  /-- The output events emitted so far, oldest first (00_scope.md R12(a)). Log entry 5 (DEDUCED). -/
  events : List OutEvent
  /-- The bytes BUS_READ returned so far, oldest first (00_scope.md R12(b)). Log entry 5 (DEDUCED). -/
  reads : List Byte
  /-- The model's own: the results DIFF returned so far, oldest first. Log entry 6 (DESIGN CHOICE). -/
  diffs : List Int
  /-- The model's own: the steps still to be served, next first. Log entry 2 (DESIGN CHOICE). -/
  schedule : List Event
  /-- The model's own: samples inside the next snapshot copy. Log entry 12 (DESIGN CHOICE). -/
  midCopy : MidCopy
  deriving DecidableEq, Repr

/-- There is no fault: "No operation of the block faults" (60_exceptions.md R216). -/
inductive Fault where
  deriving DecidableEq, Repr

/-- Why a step is refused. -/
inductive Refusal where
  /-- An instruction without a meaning: raised by no arm of `exec`, since every operation is modelled. Safe. -/
  | notModelled (mnemonic : String)
  deriving DecidableEq, Repr

/-- The state after RESET (70_reset_and_hazards.md R230): the counters 0 as the source says; `enc`, `cmd`, `nd`, `snap`,
`cur` as the spec decides (D7, D15, D16; log entries 7, 8, 9, each DESIGN CHOICE); nothing observed and nothing scheduled. -/
def State.reset : State where
  pos := ⟨0, 0, 0⟩
  enc := ⟨0, 0, 0⟩
  cmd := #v[0, 0, 0, 0, 0]
  nd := false
  snap := #v[0, 0, 0, 0, 0, 0]
  cur := 6
  events := []
  reads := []
  diffs := []
  schedule := []
  midCopy := ⟨[], []⟩

end Sys2Proof.Machine
end

