-- ==== Sys2Proof/Machine/Operands.lean ====
section
/-! DEFINITION. Operand forms: the samples of a port byte, the transition table, the bytes and speeds of a frame, the bytes
of a counter, and the counter arithmetic. -/

namespace Sys2Proof.Machine

/-- `sample2(p, SH) = (p >> SH) & 3` (00_scope.md section 8, 30_encoding.md R95): bits `SH+1` and `SH` of the port byte. -/
def sample2 (p : Byte) (sh : Fin 7) : Quad := (p >>> sh.val).setWidth 2

/-- The three new samples `n_A`, `n_B`, `n_C` of one port read (40_quadrature_decoder.md R111). -/
def samples (cfg : Config) (p : Byte) : PerAxis Quad :=
  ⟨sample2 p cfg.shift.a, sample2 p cfg.shift.b, sample2 p cfg.shift.c⟩

/-- `T_STD`, `TABLEN` = 16 entries (40_quadrature_decoder.md R113). Log entry 15 (PRESUMED). -/
def tStd : Vector Int 16 := #v[0, -1, 1, 0, 1, 0, 0, -1, -1, 0, 0, 1, 0, 1, -1, 0]

/-- `idx = new_bits | (previous_bits << 2)`, four bits (30_encoding.md R96). -/
def tableIndex (prev new : Quad) : BitVec 4 := (prev.setWidth 4 <<< 2) ||| new.setWidth 4

/-- `T[(prev << 2) | new]` with `T = POL * T_STD` (40_quadrature_decoder.md R113). -/
def delta (cfg : Config) (prev new : Quad) : Int := cfg.pol.sign * tStd[(tableIndex prev new).toFin]

/-- `sgn_X`: +1 for A and B, -1 for C, whose wiring is reversed (40_quadrature_decoder.md R115, R119). -/
def axisSign : Axis → Int
  | .a => 1
  | .b => 1
  | .c => -1

/-- `(pos + d) mod 2^16`, wrapping silently (10_state.md R21, 41_position_counters.md R137). -/
def countAdd (pos : Count) (d : Int) : Count := BitVec.ofInt 16 (pos.toNat + d)

/-- `buf[0] ^ buf[1] ^ buf[2] ^ buf[3]` of a F5 frame, the opcode included (30_encoding.md R86). -/
def xorF5 (op p1 p2 p3 : Byte) : Byte := op ^^^ p1 ^^^ p2 ^^^ p3

/-- The signed speed of a motor payload byte, `value - 128` (`BIAS` = 128, 30_encoding.md R84). -/
def speedOf (value : Byte) : Int := (value.toNat : Int) - 128

/-- `hi(v) = v[15:8]` (00_scope.md section 8). -/
def hiByte (v : Count) : Byte := v.extractLsb' 8 8

/-- `lo(v) = v[7:0]` (00_scope.md section 8). -/
def loByte (v : Count) : Byte := v.extractLsb' 0 8

/-- The snapshot of three counter values: big-endian per axis, axis order C, B, A (20_memory.md R50, 10_state.md R30). -/
def snapshotBytes (posC posB posA : Count) : Vector Byte 6 :=
  #v[hiByte posC, loByte posC, hiByte posB, loByte posB, hiByte posA, loByte posA]

end Sys2Proof.Machine
end

