-- ==== Sys2Proof/Machine/Flags.lean ====
section
/-! DEFINITION. The block's one flag, the new-data flag (10_state.md R25), and the checksum predicate, which sets no flag
(10_state.md R26, 43_command_dispatcher.md R174). -/

namespace Sys2Proof.Machine

/-- `nd <- 1`: every BUS_WRITE (42_bus_transport.md R152). -/
def State.raiseNd (s : State) : State := { s with nd := true }

/-- `nd <- 0`: DISPATCH, before the command acts (43_command_dispatcher.md R170, R172). -/
def State.clearNd (s : State) : State := { s with nd := false }

/-- `checksum_ok()`: the XOR of bytes 0 to 3 equals byte 4 (43_command_dispatcher.md R174, 30_encoding.md R86). -/
def checksumOk (op p1 p2 p3 ck : Byte) : Bool := xorF5 op p1 p2 p3 == ck

end Sys2Proof.Machine
end

