-- ==== Sys2Proof/Machine/Ops.lean ====
section
/-! DEFINITION. The named operations over the registers and the observation, and the fail-safe, the block's only "trap"
(60_exceptions.md R208). There is no return from it, because nothing is entered (60_exceptions.md R210). -/

namespace Sys2Proof.Machine

/-- `emit`: append output events, in order, to the observation (00_scope.md R12 and section 7). It cannot fail (D31). -/
def State.emit (s : State) (es : List OutEvent) : State := { s with events := s.events ++ es }

/-- The byte a BUS_READ returns, appended to the observation (00_scope.md R12(b)). -/
def State.returnByte (s : State) (d : Byte) : State := { s with reads := s.reads ++ [d] }

/-- The result DIFF returns to its caller; no register of the block takes it (41_position_counters.md R130). Log entry 6 (DESIGN CHOICE). -/
def State.returnDiff (s : State) (d : Int) : State := { s with diffs := s.diffs ++ [d] }

/-- `pos[X]` and `enc[X]` of all three axes, written by SAMPLE only (10_state.md R22, R28). -/
def State.writeAxes (s : State) (pos : PerAxis Count) (enc : PerAxis Quad) : State := { s with pos := pos, enc := enc }

/-- Copy up to five bytes into the command buffer: `cmd[i] <- w[i]` for `i < min(len(w), 5)`, the other bytes keep their
value, bytes beyond the fifth are discarded (42_bus_transport.md R151, R153, R155). -/
def State.writeCmd (s : State) (w : List Byte) : State :=
  { s with cmd := Vector.ofFn fun i => w.getD i.val s.cmd[i] }

/-- Latch three counter values into the snapshot buffer and arm it: `cur <- 0` (43_command_dispatcher.md R179). -/
def State.latch (s : State) (posC posB posA : Count) : State :=
  { s with snap := snapshotBytes posC posB posA, cur := 0 }

/-- The cursor advance of a BUS_READ (42_bus_transport.md R156). -/
def State.advanceCur (s : State) : State := { s with cur := s.cur + 1 }

/-- The samples inside the next snapshot copy are used up. Log entry 12 (DESIGN CHOICE). -/
def State.dropMidCopy (s : State) : State := { s with midCopy := ⟨[], []⟩ }

/-- The four events of the fail-safe, in the spec's order (43_command_dispatcher.md R181; D18). -/
def failsafeEvents (cfg : Config) : List OutEvent :=
  [.motor 0 0, .motor 1 0, .motor 2 0, .lightSolid cfg.errRgb]

/-- `failsafe()`: all motors to 0, the error colour; no state of the block changes, nothing is saved, nothing latches
(43_command_dispatcher.md R181, 60_exceptions.md R208, R211). -/
def failsafe (cfg : Config) (s : State) : State := s.emit (failsafeEvents cfg)

end Sys2Proof.Machine
end

