-- ==== Sys2Proof/Machine/Counters.lean ====
section
/-! DEFINITION. The wrap-safe difference: DIFF (41_position_counters.md R130 to R135). -/

namespace Sys2Proof.Machine

/-- DIFF(a, b) by the spec's procedure (41_position_counters.md R131): the naive difference, corrected by 65536 where it
lies beyond half the range; -32768 is returned as it is (R134; D21). Log entry 13 (DESIGN CHOICE). -/
def difference (a b : Count) : Int :=
  let d : Int := (b.toNat : Int) - a.toNat
  if d > 32767 then d - 65536 else if d < -32768 then d + 65536 else d

/-- DIFF: it reads no state and writes none of the block's (41_position_counters.md R130). -/
def execDiff (a b : Count) (s : State) : Host.Outcome State Fault Refusal := .next (s.returnDiff (difference a b))

end Sys2Proof.Machine
end

