-- ==== Sys2Proof/Machine/Quadrature.lean ====
section
/-! DEFINITION. The quadrature decoder: SAMPLE (40_quadrature_decoder.md). -/

namespace Sys2Proof.Machine

/-- SAMPLE(p) under a configuration (40_quadrature_decoder.md R116): each counter moves by the table's delta, C the other
way (R115); the new readings are retained whatever the delta was (R117); nothing else changes. -/
def sampleWith (cfg : Config) (p : Byte) (s : State) : State :=
  let n := samples cfg p
  s.writeAxes
    ⟨countAdd s.pos.a (axisSign .a * delta cfg s.enc.a n.a),
     countAdd s.pos.b (axisSign .b * delta cfg s.enc.b n.b),
     countAdd s.pos.c (axisSign .c * delta cfg s.enc.c n.c)⟩ n

/-- SAMPLE steps for a list of port bytes, first byte first. -/
def sampleAll (cfg : Config) (ps : List Byte) (s : State) : State :=
  ps.foldl (fun t p => sampleWith cfg p t) s

/-- SAMPLE. -/
def execSample (p : Byte) (s : State) : Host.Outcome State Fault Refusal := .next (sampleWith Config.chip p s)

end Sys2Proof.Machine
end

