-- ==== Sys2Proof/Machine/Dispatcher.lean ====
section
/-! DEFINITION. The command dispatcher: DISPATCH and the four bus commands it decodes (43_command_dispatcher.md). A
command's meaning here is the whole DISPATCH step of its frame: the flag is cleared, then the command acts (R170, R172; log
entry 24). -/

namespace Sys2Proof.Machine

/-- `do_motor_speed_set()` (43_command_dispatcher.md R175); nothing on a bad checksum (R176). -/
def doMotorSpeedSet (cfg : Config) (a b c k : Byte) (s : State) : State :=
  if checksumOk cfg.opcMotorSpeedSet a b c k then
    s.emit [.motor 0 (speedOf a), .motor 1 (speedOf b), .motor 2 (speedOf c), .lightMotorPattern a b c]
  else s

/-- `do_set_solid_colour()` (43_command_dispatcher.md R177); nothing on a bad checksum (R176). -/
def doSetSolidColour (cfg : Config) (r g b k : Byte) (s : State) : State :=
  if checksumOk cfg.opcSetSolidColour r g b k then s.emit [.lightSolid ⟨r, g, b⟩] else s

/-- `do_encoder_read()` (43_command_dispatcher.md R179). With `SNAPSHOT_COHERENT` all three counters are copied at one point
of the run; without it, SAMPLE steps fall between the copies of C, B and A, each copy whole (20_memory.md R55, R56). -/
def doEncoderRead (cfg : Config) (s : State) : State :=
  if cfg.snapshotCoherent then s.latch s.pos.c s.pos.b s.pos.a
  else
    let s1 := sampleAll cfg s.midCopy.afterC s
    let s2 := sampleAll cfg s.midCopy.afterB s1
    (s2.latch s.pos.c s1.pos.b s2.pos.a).dropMidCopy

/-- The action of a decoded frame under a configuration (43_command_dispatcher.md R170, R171). An operation that is no bus
command is never decoded from a frame and does nothing here. -/
def actCommand (cfg : Config) (s : State) : Instr → State
  | .motorSpeedSet a b c k => doMotorSpeedSet cfg a b c k s
  | .setSolidColour r g b k => doSetSolidColour cfg r g b k s
  | .encoderRead => doEncoderRead cfg s
  | .unrecognized _ => failsafe cfg s
  | .dispatch => s
  | .busWrite _ => s
  | .busRead => s
  | .sample _ => s
  | .diff _ _ => s
  | .reset => s

/-- DISPATCH under a configuration (43_command_dispatcher.md R170): enabled iff `nd = 1`; a poll that finds `nd = 0` changes
nothing (D34, log entry 19, DESIGN CHOICE). -/
def dispatchWith (cfg : Config) (s : State) : State :=
  if s.nd then actCommand cfg s.clearNd (decodeFrame cfg s.cmd) else s

/-- MOTOR_SPEED_SET. -/
def execMotorSpeedSet (a b c k : Byte) (s : State) : Host.Outcome State Fault Refusal :=
  .next (doMotorSpeedSet Config.chip a b c k s.clearNd)

/-- SET_SOLID_COLOUR. -/
def execSetSolidColour (r g b k : Byte) (s : State) : Host.Outcome State Fault Refusal :=
  .next (doSetSolidColour Config.chip r g b k s.clearNd)

/-- ENCODER_READ. -/
def execEncoderRead (s : State) : Host.Outcome State Fault Refusal := .next (doEncoderRead Config.chip s.clearNd)

/-- UNRECOGNIZED: the fail-safe, whatever the opcode byte was and with no checksum consulted
(43_command_dispatcher.md R180). -/
def execUnrecognized (_o : Byte) (s : State) : Host.Outcome State Fault Refusal :=
  .next (failsafe Config.chip s.clearNd)

/-- DISPATCH. -/
def execDispatch (s : State) : Host.Outcome State Fault Refusal := .next (dispatchWith Config.chip s)

end Sys2Proof.Machine
end

