-- ==== Sys2Proof/Machine/Startup.lean ====
section
/-! DEFINITION. RESET (70_reset_and_hazards.md R230 to R232). -/

namespace Sys2Proof.Machine

/-- RESET: every register of the block at its reset value (R230); no output event (R232). The observation and the inputs
still to come are not the block's and stay. That RESET is the first event of a run (R231) is the environment's duty:
`Safety.ResetOnlyFirst`. Log entry 11 (DESIGN CHOICE). -/
def execReset (s : State) : Host.Outcome State Fault Refusal :=
  .next { s with
    pos := State.reset.pos, enc := State.reset.enc, cmd := State.reset.cmd, nd := State.reset.nd,
    snap := State.reset.snap, cur := State.reset.cur }

end Sys2Proof.Machine
end

