-- ==== Sys2Proof/Machine/Transport.lean ====
section
/-! DEFINITION. The bus transport and command framer: BUS_WRITE and BUS_READ (42_bus_transport.md). -/

namespace Sys2Proof.Machine

/-- BUS_WRITE(w): fill the command buffer, then raise the flag, whatever the bytes were (42_bus_transport.md R151, R152);
a pending command is overwritten (R154). -/
def execBusWrite (w : List Byte) (s : State) : Host.Outcome State Fault Refusal := .next (s.writeCmd w).raiseNd

/-- BUS_READ(): `snap[cur]` and advance while `cur < 6`, else the sentinel 0 and no change of the cursor
(42_bus_transport.md R156, R158). -/
def execBusRead (s : State) : Host.Outcome State Fault Refusal :=
  .next (if h : s.cur < 6 then s.advanceCur.returnByte s.snap[s.cur] else s.returnByte 0)

end Sys2Proof.Machine
end

