-- ==== Sys2Proof/Machine/Dispatch.lean ====
section
/-! DEFINITION. The meaning of each operation, one arm per constructor of Instr. -/

namespace Sys2Proof.Machine

def exec (i : Instr) (s : State) : Host.Outcome State Fault Refusal :=
  match i with
  | .motorSpeedSet a b c k => Sys2Proof.Machine.execMotorSpeedSet a b c k s
  | .setSolidColour r g b k => Sys2Proof.Machine.execSetSolidColour r g b k s
  | .encoderRead => Sys2Proof.Machine.execEncoderRead s
  | .unrecognized o => Sys2Proof.Machine.execUnrecognized o s
  | .dispatch => Sys2Proof.Machine.execDispatch s
  | .busWrite w => Sys2Proof.Machine.execBusWrite w s
  | .busRead => Sys2Proof.Machine.execBusRead s
  | .sample p => Sys2Proof.Machine.execSample p s
  | .diff a b => Sys2Proof.Machine.execDiff a b s
  | .reset => Sys2Proof.Machine.execReset s

end Sys2Proof.Machine
end

