-- ==== Sys2Proof/Machine/Schedule.lean ====
section
/-! DEFINITION. Which operation runs next: the events are served in the order of the schedule (20_memory.md R63), and where
none is left the dispatcher acts if the flag is raised (70_reset_and_hazards.md R247). -/

namespace Sys2Proof.Machine

/-- The operation an event runs (92_eei_decisions.md D2). -/
def Event.instr : Event → Instr
  | .sample p => .sample p
  | .busWrite w => .busWrite w
  | .busRead => .busRead
  | .dispatch => .dispatch
  | .diff a b => .diff a b
  | .reset => .reset

/-- The next event and the state it is served in. With an empty schedule the dispatcher's poll is next while `nd = 1`; with
`nd = 0` there is nothing to do (43_command_dispatcher.md R170; D34). Log entries 2 (DESIGN CHOICE), 19 (DESIGN CHOICE), 20 (DESIGN CHOICE). -/
def State.nextEvent (s : State) : Option (Event × State) :=
  match s.schedule with
  | e :: rest => some (e, { s with schedule := rest })
  | [] => if s.nd then some (.dispatch, s) else none

/-- Put a code where the next step takes it: a frame into the command buffer with the flag raised and the dispatcher next;
any other code as the next event of the schedule. -/
def State.place (s : State) : Code → State
  | .frame bytes => { s with cmd := bytes, nd := true, schedule := .dispatch :: s.schedule }
  | .poll => { s with schedule := .dispatch :: s.schedule }
  | .transaction bytes => { s with schedule := .busWrite bytes :: s.schedule }
  | .readRequest => { s with schedule := .busRead :: s.schedule }
  | .port p => { s with schedule := .sample p :: s.schedule }
  | .readings bits =>
    { s with schedule := .diff (bits.extractLsb' 16 16) (bits.extractLsb' 0 16) :: s.schedule }
  | .startUp => { s with schedule := .reset :: s.schedule }

end Sys2Proof.Machine
end

