-- ==== Sys2Proof/Machine/Step.lean ====
section
/-! DEFINITION. One step: the next event's operation runs, whole (20_memory.md R57); with nothing to do the
block idles (D34). -/

namespace Sys2Proof.Machine

/-- One step of the machine. -/
def step (s : State) : Host.Outcome State Fault Refusal :=
  match s.nextEvent with
  | some (e, t) => exec e.instr t
  | none => .next s

/-- The state whose next step runs the operation of a word of the opcode table. A width the table does not have changes
nothing. Log entries 2 (DESIGN CHOICE), 25 (DEDUCED). -/
def State.withFetchWord (s : State) (nbits w : Nat) : State :=
  match codeOfTableWord nbits w with
  | some code => s.place code
  | none => s

end Sys2Proof.Machine
end

