-- ==== Sys2Proof/Safety.lean ====
section
/-! DEFINITION. The terms claims are stated in: the invariant of the state, the environment's duties (R231, R238, R240,
R243), the reference notions of encoder motion and of the read-out stream. No definition here is part of the machine. -/

namespace Sys2Proof.Safety

open Sys2Proof Sys2Proof.Machine

/-- The ranges the spec gives what the state holds: `0 <= cur <= 6` (10_state.md R36), every commanded speed in
[-128, 127] (43_command_dispatcher.md R178), every DIFF result in -32768..32767 (41_position_counters.md R135(d)). -/
def Inv (s : State) : Prop :=
  s.cur ≤ 6 ∧ (∀ ch v, OutEvent.motor ch v ∈ s.events → -128 ≤ v ∧ v ≤ 127) ∧
  (∀ d ∈ s.diffs, -32768 ≤ d ∧ d ≤ 32767)

/-- No ENCODER_READ has left a trace: `snap[i] = 0` for all `i` and `cur = 6` (10_state.md R36). -/
def NoSnapshotYet (s : State) : Prop := s.snap = #v[0, 0, 0, 0, 0, 0] ∧ s.cur = 6

/-- Duty of the environment: RESET only as the first event of a run (70_reset_and_hazards.md R231). -/
abbrev ResetOnlyFirst (es : List Event) : Prop := Event.reset ∉ es.tail

/-- Duty of the host: each command at its expected length, never an empty write (70_reset_and_hazards.md R243). -/
abbrev FullLengthWrite (cfg : Config) (w : List Byte) : Prop :=
  w ≠ [] ∧ (w.head? = some cfg.opcMotorSpeedSet ∨ w.head? = some cfg.opcSetSolidColour → w.length = 5) ∧
  (w.head? = some cfg.opcEncoderRead → w.length = 1)

/-- Duty of the host: no second write before the first is dispatched (70_reset_and_hazards.md R240). `pending` says whether
a write is undispatched when the events begin. -/
def WritesSpaced (pending : Bool) : List Event → Prop
  | [] => True
  | .busWrite _ :: rest => pending = false ∧ WritesSpaced true rest
  | .dispatch :: rest => WritesSpaced false rest
  | .sample _ :: rest => WritesSpaced pending rest
  | .busRead :: rest => WritesSpaced pending rest
  | .diff _ _ :: rest => WritesSpaced pending rest
  | .reset :: rest => WritesSpaced false rest

/-- The reading of a pin pair when its encoder stands `n` single steps from a place where it reads `00`, along the direction
`00 -> 10 -> 11 -> 01 -> 00` (40_quadrature_decoder.md R113). -/
def pinsAt (n : Int) : Quad :=
  if n % 4 = 0 then 0b00 else if n % 4 = 1 then 0b10 else if n % 4 = 2 then 0b11 else 0b01

/-- The readings of three encoders. -/
def pinsOf (n : PerAxis Int) : PerAxis Quad := ⟨pinsAt n.a, pinsAt n.b, pinsAt n.c⟩

/-- At most one single step of one axis. -/
abbrev NearStep (m n : Int) : Prop := m - n ≤ 1 ∧ n - m ≤ 1

/-- The environment's sampling duty (70_reset_and_hazards.md R238): the encoders stand at `n`, and each SAMPLE (its
encoder positions and its port byte) finds every axis at most one step from where the SAMPLE before found it. -/
def Tracks (cfg : Config) (n : PerAxis Int) : List (PerAxis Int × Byte) → Prop
  | [] => True
  | (m, p) :: rest =>
    NearStep m.a n.a ∧ NearStep m.b n.b ∧ NearStep m.c n.c ∧ samples cfg p = pinsOf m ∧ Tracks cfg m rest

/-- Where the encoders stand at the last SAMPLE of a track. -/
def lastPosition (n : PerAxis Int) (track : List (PerAxis Int × Byte)) : PerAxis Int :=
  (track.map Prod.fst).getLastD n

/-- The table deltas one axis receives from a list of port bytes, starting from the retained reading `prev`
(41_position_counters.md R139). -/
def deltasOf (cfg : Config) (x : Axis) (prev : Quad) : List Byte → List Int
  | [] => []
  | p :: rest => delta cfg prev ((samples cfg p).get x) :: deltasOf cfg x ((samples cfg p).get x) rest

/-- Byte `j` of the read-out stream of a snapshot buffer: the sentinel 0 from index 6 on (30_encoding.md R97). -/
def streamByte (snap : Vector Byte 6) (j : Nat) : Byte := if h : j < 6 then snap[j] else 0

/-- The events leave the last snapshot as it is: none is a DISPATCH that runs ENCODER_READ, and none is RESET
(42_bus_transport.md R158, R160). `op` is `cmd[0]` and `pending` the flag when the events begin; a write of no bytes keeps
`op` and raises the flag. -/
def KeepsSnapshot (cfg : Config) (op : Byte) (pending : Bool) : List Event → Prop
  | [] => True
  | .dispatch :: rest => ¬(pending = true ∧ op = cfg.opcEncoderRead) ∧ KeepsSnapshot cfg op false rest
  | .busWrite w :: rest => KeepsSnapshot cfg (w.headD op) true rest
  | .sample _ :: rest => KeepsSnapshot cfg op pending rest
  | .busRead :: rest => KeepsSnapshot cfg op pending rest
  | .diff _ _ :: rest => KeepsSnapshot cfg op pending rest
  | .reset :: _ => False

end Sys2Proof.Safety
end

