-- ==== Sys2Proof/Certificates/Slice0/Obligations.lean ====
section
/-! DEFINITION. The obligations: what the spec says the block does, as statements about `exec`, `step` and the operations
they run. The prefix "stated" or "derived" of each is in OBLIGATIONS.json. -/

open Sys2Proof Sys2Proof.Machine Sys2Proof.Safety

/-- A step runs the operation of the next scheduled event, whole, on the state with that event taken off. The schedule
is the model's choice (log entry 2): it is the run's total order of whole steps (20_memory.md section 6). From
20_memory.md section 6, 20_memory.md section 3. -/
def Obligations.StepServesHeadEvent : Prop :=
  ∀ (s : State) (e : Event) (rest : List Event), s.schedule = e :: rest →
    step s = exec e.instr { s with schedule := rest }

/-- A step whose turn is the dispatcher, with the flag raised, runs exactly the command the buffer decodes to. When
`nd = 1` and the dispatcher is next (scheduled, or alone with an empty schedule; log entries 2 and 20), `step` is
`exec` of the decoded frame, on the state with the turn taken off; and a frame placed for fetching is the one that
runs. A command's meaning clears `nd` itself (log entry 24). From 43_command_dispatcher.md section 1, 20_memory.md
section 9. -/
def Obligations.StepRunsDecodedCommand : Prop :=
  (∀ (s : State) (rest : List Event), s.nd = true → s.schedule = .dispatch :: rest →
    step s = exec (decodeFrame Config.chip s.cmd) { s with schedule := rest }) ∧
  (∀ s : State, s.nd = true → s.schedule = [] → step s = exec (decodeFrame Config.chip s.cmd) s) ∧
  (∀ (s : State) (f : Frame),
    step (s.place (.frame f)) = exec (decodeFrame Config.chip f) { s with cmd := f, nd := true })

/-- With nothing scheduled and the flag clear a step changes nothing. The spec calls this poll no step at all (D34);
the model lets it be a step that changes nothing (log entry 19). From 92_eei_decisions.md D34,
43_command_dispatcher.md section 1. -/
def Obligations.IdleStepChangesNothing : Prop :=
  ∀ s : State, s.schedule = [] → s.nd = false → step s = .next s

/-- Every operation answers a next state on every state and every operand; so does every step. The spec infers this
from its operation rules ("No operation of the block faults"); an empty type of faults and a refusal no arm raises
make it so. From 60_exceptions.md section 11, 30_encoding.md section 3. -/
def Obligations.EveryOperationCompletes : Prop :=
  (∀ (i : Instr) (s : State), ∃ t, exec i s = .next t) ∧ (∀ s : State, ∃ t, step s = .next t)

/-- SAMPLE adds the looked-up deltas (C: subtracts), retains the new samples, and touches nothing else. For every
configuration and every state, with `n_X` and `d_X` as the rule's pseudocode has them; `exec` runs it at the
configuration of the chip and always completes. `delta cfg prev new` is the table entry `T[(prev << 2) | new]` (stated
by TransitionTableShape). Stated by R116. -/
def Obligations.SampleAddsTableDeltas : Prop :=
  (∀ (p : Byte) (s : State), exec (.sample p) s = .next (sampleWith Config.chip p s)) ∧
  ∀ (cfg : Config) (p : Byte) (s : State),
    let nA : Quad := BitVec.ofNat 2 ((p.toNat >>> cfg.shift.a.val) &&& 3)
    let nB : Quad := BitVec.ofNat 2 ((p.toNat >>> cfg.shift.b.val) &&& 3)
    let nC : Quad := BitVec.ofNat 2 ((p.toNat >>> cfg.shift.c.val) &&& 3)
    let t := sampleWith cfg p s
    (t.pos.a.toNat : Int) = ((s.pos.a.toNat : Int) + delta cfg s.enc.a nA) % 65536 ∧
    (t.pos.b.toNat : Int) = ((s.pos.b.toNat : Int) + delta cfg s.enc.b nB) % 65536 ∧
    (t.pos.c.toNat : Int) = ((s.pos.c.toNat : Int) - delta cfg s.enc.c nC) % 65536 ∧
    t.enc = ⟨nA, nB, nC⟩ ∧ t = { s with pos := t.pos, enc := t.enc }

/-- The transition table: entries -1, 0, +1; eight zeros; nonzero exactly where one bit of the reading differs. That
the eight nonzero entries are the pairs with one bit different is from general knowledge by the spec's own mark (GK1),
and `POL * T_STD` is its decision D5 (log entry 15, PRESUMED); this holds for both polarities. The eight zero entries
are the four pairs with equal readings and the four in which both bits differ. From 40_quadrature_decoder.md section
3, 92_eei_decisions.md D5, 93_implementation_defined.md part 2. -/
def Obligations.TransitionTableShape : Prop :=
  ∀ cfg : Config,
    (∀ prev new : Quad, delta cfg prev new = cfg.pol.sign * tStd.toList.getD (prev.toNat <<< 2 ||| new.toNat) 0) ∧
    (∀ prev new : Quad, delta cfg prev new = -1 ∨ delta cfg prev new = 0 ∨ delta cfg prev new = 1) ∧
    (∀ prev new : Quad, delta cfg prev new ≠ 0 ↔ prev ^^^ new = 1 ∨ prev ^^^ new = 2) ∧
    (∀ prev new : Quad, delta cfg prev new = 0 ↔ prev = new ∨ prev ^^^ new = 3) ∧
    tStd.toList.length = 16 ∧
    (tStd.toList.map (cfg.pol.sign * ·)).countP (· == 0) = 8 ∧
    (tStd.toList.map (cfg.pol.sign * ·)).countP (fun d => d == 1 || d == -1) = 8

/-- The table's sign is POL along 00-10-11-01-00 and -POL along the reverse; it is antisymmetric. The literal table
and its default polarity are the spec's own decision D5 (log entries 3 and 15); this holds for both polarities. From
40_quadrature_decoder.md section 3, 92_eei_decisions.md D5. -/
def Obligations.TransitionTableSigns : Prop :=
  ∀ cfg : Config,
    (∀ n : Int, delta cfg (pinsAt n) (pinsAt (n + 1)) = cfg.pol.sign) ∧
    (∀ n : Int, delta cfg (pinsAt (n + 1)) (pinsAt n) = -cfg.pol.sign) ∧
    (∀ prev new : Quad, delta cfg new prev = -delta cfg prev new)

/-- Each axis reads its own two port bits; every triple of readings is some port byte; by default bits 7:6, 5:4, 3:2.
Under an admissible configuration (disjoint groups) the port can present any three readings. The default places are
the spec's decision D3 (log entry 3). From 30_encoding.md section 7, 92_eei_decisions.md D3. -/
def Obligations.SamplesAreIndependentPortFields : Prop :=
  (∀ cfg : Config, cfg.Admissible → ∀ n : PerAxis Quad, ∃ p : Byte, samples cfg p = n) ∧
  (∀ c b a u : Quad, samples Config.chip (c ++ b ++ a ++ u) = ⟨a, b, c⟩)

/-- Two port bytes that agree on the six encoder bits have the same SAMPLE step. The spec derives it as corner case
(f): bits of `p` outside the three groups never matter. From 40_quadrature_decoder.md section 4. -/
def Obligations.UnusedPortBitsIgnored : Prop :=
  ∀ (cfg : Config) (p q : Byte) (s : State),
    (∀ (x : Axis) (k : Nat), k < 2 →
      p.getLsbD ((cfg.shift.get x).val + k) = q.getLsbD ((cfg.shift.get x).val + k)) →
    sampleWith cfg p s = sampleWith cfg q s

/-- A SAMPLE of unchanged pins is a no-op, and a step there and back leaves the state as it was. Corner cases (a) and
(b) the spec derives, whatever the polarity. From 40_quadrature_decoder.md section 4. -/
def Obligations.ResampleAndBounceCancel : Prop :=
  (∀ (cfg : Config) (p : Byte) (s : State), samples cfg p = s.enc → sampleWith cfg p s = s) ∧
  (∀ (cfg : Config) (p q : Byte) (s : State), samples cfg p = s.enc →
    sampleWith cfg p (sampleWith cfg q s) = s)

/-- Where both bits of an axis changed, its counter stays and the new reading is retained all the same. That the
reading is replaced even then is the spec's decision D6 (log entry 14). From 40_quadrature_decoder.md section 4,
92_eei_decisions.md D6. -/
def Obligations.SkippedStateCountsNothing : Prop :=
  ∀ (cfg : Config) (p : Byte) (s : State) (x : Axis), (samples cfg p).get x = s.enc.get x ^^^ 3 →
    (sampleWith cfg p s).pos.get x = s.pos.get x ∧ (sampleWith cfg p s).enc.get x = s.enc.get x ^^^ 3

/-- A counter update is addition modulo 2^16: 65535 up gives 0, 0 down gives 65535, and nothing records the wrap. For
every counter value and every integer; and in the SAMPLE that wraps nothing but `pos` and `enc` changes. No value
saturates. Stated by R21. -/
def Obligations.CountersWrapSilently : Prop :=
  (∀ (v : Count) (d : Int), ((countAdd v d).toNat : Int) = ((v.toNat : Int) + d) % 65536) ∧
  ∀ (p : Byte) (s : State), ∃ t : State, exec (.sample p) s = .next t ∧
    (∀ x : Axis, s.pos.get x = 65535 → axisSign x * delta Config.chip (s.enc.get x) ((samples Config.chip p).get x) = 1 →
      t.pos.get x = 0) ∧
    (∀ x : Axis, s.pos.get x = 0 → axisSign x * delta Config.chip (s.enc.get x) ((samples Config.chip p).get x) = -1 →
      t.pos.get x = 65535) ∧
    t = { s with pos := t.pos, enc := t.enc }

/-- After the first SAMPLE from reset each counter is 0, 1 or 65535. It rests on the spec's decision D7 that the
readings reset to 00 (log entry 7). From 70_reset_and_hazards.md section 1, 92_eei_decisions.md D7. -/
def Obligations.FirstSampleAfterReset : Prop :=
  ∀ (cfg : Config) (p : Byte) (x : Axis),
    (sampleWith cfg p State.reset).pos.get x = 0 ∨ (sampleWith cfg p State.reset).pos.get x = 1 ∨
    (sampleWith cfg p State.reset).pos.get x = 65535

/-- If no axis moves more than one step between two SAMPLEs, the counters follow the true motion exactly. The encoders
stand at `n` when the track begins and at `lastPosition n track` when it ends. For every configuration; and as the
steps of the machine. From 70_reset_and_hazards.md section 3, 41_position_counters.md section 2. -/
def Obligations.TrackedMotionCountedExactly : Prop :=
  (∀ (cfg : Config) (n : PerAxis Int) (track : List (PerAxis Int × Byte)) (s : State),
    s.enc = pinsOf n → Tracks cfg n track →
    let t := sampleAll cfg (track.map Prod.snd) s
    let m := lastPosition n track
    t.enc = pinsOf m ∧
    (t.pos.a.toNat : Int) = ((s.pos.a.toNat : Int) + cfg.pol.sign * (m.a - n.a)) % 65536 ∧
    (t.pos.b.toNat : Int) = ((s.pos.b.toNat : Int) + cfg.pol.sign * (m.b - n.b)) % 65536 ∧
    (t.pos.c.toNat : Int) = ((s.pos.c.toNat : Int) - cfg.pol.sign * (m.c - n.c)) % 65536) ∧
  (∀ (track : List (PerAxis Int × Byte)) (rest : List Event) (s : State),
    s.schedule = track.map (fun q => Event.sample q.2) ++ rest →
    Host.Core.run Sys2Proof.core track.length s =
      .next { sampleAll Config.chip (track.map Prod.snd) s with schedule := rest })

/-- Over any run without RESET a counter moves by its net table deltas, and DIFF recovers them within half range. The
run is any list of events after the first, with RESET only first (an environment duty; log entry 11); `ps` are the
port bytes of its SAMPLE events, `u` and `v` the numbers of +1 and -1 deltas. Nothing else in the run moves a counter.
From 41_position_counters.md section 4, 10_state.md section 1. -/
def Obligations.NetMotionLaw : Prop :=
  ∀ (s : State) (e : Event) (es rest : List Event), s.schedule = (e :: es) ++ rest → ResetOnlyFirst (e :: es) →
    ∃ t0 t1 : State, Host.Core.run Sys2Proof.core 1 s = .next t0 ∧
      Host.Core.run Sys2Proof.core (es.length + 1) s = .next t1 ∧
      ∀ x : Axis,
        let ps : List Byte := es.filterMap (fun ev => match ev with | .sample p => some p | _ => none)
        let ds := deltasOf Config.chip x (t0.enc.get x) ps
        let net : Int := axisSign x * ((ds.count 1 : Int) - (ds.count (-1) : Int))
        ((t1.pos.get x).toNat : Int) = (((t0.pos.get x).toNat : Int) + net) % 65536 ∧
        (-32767 ≤ net → net ≤ 32767 → difference (t0.pos.get x) (t1.pos.get x) = net)

/-- DIFF(a, (a + k) mod 2^16) = k for every reading a and every k in -32767..32767. The law of the rule, across any
wrap. Stated by R133. -/
def Obligations.DiffRecoversMotion : Prop :=
  ∀ (a b : Count) (k : Int), -32767 ≤ k → k ≤ 32767 →
    (b.toNat : Int) = ((a.toNat : Int) + k) % 65536 → difference a b = k

/-- DIFF returns sext_16((b - a) mod 2^16) and changes nothing else. Where the result is kept is the model's choice
(log entry 6); the value at half range is the spec's decision D21 (log entry 13). From 41_position_counters.md section
2, 92_eei_decisions.md D21. -/
def Obligations.DiffReturnsSignExtendedDifference : Prop :=
  ∀ (a b : Count) (s : State), exec (.diff a b) s = .next { s with diffs := s.diffs ++ [(b - a).toInt] }

/-- DIFF: identity, antisymmetry except at half range, translation, range, and adding it back. The laws the spec
derives for DIFF, half range included (decision D21, log entry 13). From 41_position_counters.md section 2. -/
def Obligations.DiffLaws : Prop :=
  (∀ a : Count, difference a a = 0) ∧
  (∀ a b : Count, b - a ≠ 0x8000 → difference b a = -difference a b) ∧
  (∀ a b : Count, b - a = 0x8000 → difference a b = -32768 ∧ difference b a = -32768) ∧
  (∀ a b k : Count, difference (a + k) (b + k) = difference a b) ∧
  (∀ a b : Count, -32768 ≤ difference a b ∧ difference a b ≤ 32767) ∧
  (∀ a b : Count, ((a.toNat : Int) + difference a b) % 65536 = (b.toNat : Int))

/-- BUS_WRITE copies up to five bytes into cmd, keeps the others, raises nd, and touches nothing else. For a
transaction of any length. The rule says the bytes it does not supply are not written; that the dispatcher then reads
the old ones is the spec's decision D10 (log entry 16). Stated by R151. -/
def Obligations.BusWriteFillsAndRaises : Prop :=
  ∀ (w : List Byte) (s : State), ∃ t : State, exec (.busWrite w) s = .next t ∧
    (∀ (i : Nat) (_ : i < 5), t.cmd[i] = if hw : i < w.length then w[i] else s.cmd[i]) ∧
    t = { s with cmd := t.cmd, nd := true }

/-- A write transaction of six or more bytes acts exactly as its first five. The two writes have the same outcome on
every state. Stated by R91. -/
def Obligations.ExcessBytesDiscarded : Prop :=
  ∀ (w : List Byte) (s : State), exec (.busWrite w) s = exec (.busWrite (w.take 5)) s

/-- A second write before DISPATCH overwrites the pending frame byte by byte, and one DISPATCH follows. Stale tails
and the loss of the earlier command are the spec's decisions D10 and D12 (log entry 16). Where the later write is at
least as long, the earlier one leaves no trace. From 42_bus_transport.md section 2, 92_eei_decisions.md D12. -/
def Obligations.PendingCommandOverwritten : Prop :=
  ∀ (w1 w2 : List Byte) (s : State), ∃ s1 t u : State,
    exec (.busWrite w1) s = .next s1 ∧ s1.nd = true ∧ exec (.busWrite w2) s1 = .next t ∧ t.nd = true ∧
    (∀ (i : Nat) (_ : i < 5), t.cmd[i] =
      if h2 : i < w2.length then w2[i] else if h1 : i < w1.length then w1[i] else s.cmd[i]) ∧
    (w1.length ≤ w2.length ∨ 5 ≤ w2.length → exec (.busWrite w2) s = .next t) ∧
    exec .dispatch t = exec (decodeFrame Config.chip t.cmd) t ∧ exec .dispatch t = .next u ∧ u.nd = false

/-- A write of no bytes only raises the flag, so the old buffer is dispatched again. The spec's decision D11 (log
entry 16). From 42_bus_transport.md section 2, 92_eei_decisions.md D11. -/
def Obligations.EmptyWriteRepeatsCommand : Prop :=
  ∀ s : State, exec (.busWrite []) s = .next { s with nd := true } ∧
    exec .dispatch { s with nd := true } = exec (decodeFrame Config.chip s.cmd) { s with nd := true }

/-- A full-length write and its DISPATCH do not depend on what the command buffer held before. Two runs that differ
only in the old buffer end in states that differ in the buffer alone. The hypothesis is the host's unenforced duty.
From 70_reset_and_hazards.md section 3, 43_command_dispatcher.md section 6. -/
def Obligations.FullLengthFramesIgnoreStaleBytes : Prop :=
  ∀ (w : List Byte) (s : State) (old : Frame), FullLengthWrite Config.chip w →
    ∃ s1 s1' t t' : State,
      exec (.busWrite w) s = .next s1 ∧ exec (.busWrite w) { s with cmd := old } = .next s1' ∧
      exec .dispatch s1 = .next t ∧ exec .dispatch s1' = .next t' ∧ t' = { t with cmd := t'.cmd }

/-- If the host waits for each dispatch, every write finds nd = 0, so no command is overwritten. At every position of
the schedule that is a write, the run up to it reaches a state with the flag clear. The hypothesis is the host's
unenforced duty. From 70_reset_and_hazards.md section 3, 20_memory.md section 6. -/
def Obligations.SpacedWritesFindFlagClear : Prop :=
  ∀ (s : State) (es rest : List Event), s.schedule = es ++ rest → WritesSpaced s.nd es →
    ∀ (k : Nat) (w : List Byte), es[k]? = some (.busWrite w) →
      ∃ t : State, Host.Core.run Sys2Proof.core k s = .next t ∧ t.nd = false ∧
        t.schedule = .busWrite w :: (es.drop (k + 1) ++ rest)

/-- BUS_READ returns snap[cur] and advances while cur < 6, else returns 0 and leaves the cursor. The returned byte is
the new last element of `reads`, the observation of 00_scope.md R12(b) (log entry 5); nothing else changes. Stated by
R156. -/
def Obligations.BusReadServesSnapshot : Prop :=
  ∀ s : State,
    (∀ h : s.cur < 6, exec .busRead s = .next { s with cur := s.cur + 1, reads := s.reads ++ [s.snap[s.cur]] }) ∧
    (¬ s.cur < 6 → exec .busRead s = .next { s with reads := s.reads ++ [0] })

/-- After an ENCODER_READ dispatch the reads return C, B, A high byte first, then 0, until the next ENCODER_READ or
RESET. Any SAMPLE, BUS_WRITE and DIFF steps, any poll with nd = 0 and any DISPATCH of another command may fall between
the reads: the stream is that of the counters at the dispatch, and 0 for as long as no ENCODER_READ is dispatched. The
premise says of the schedule alone that none is and that no RESET comes. The steps are those of a schedule (log entry
2), and the chip copies the three counters at one point (D14, log entry 3). From 30_encoding.md section 8,
42_bus_transport.md section 3. -/
def Obligations.ReadoutStream : Prop :=
  ∀ (s : State) (es rest : List Event), s.nd = true → s.cmd[0] = Config.chip.opcEncoderRead →
    s.schedule = .dispatch :: (es ++ rest) → KeepsSnapshot Config.chip Config.chip.opcEncoderRead false es →
    ∃ t : State, Host.Core.run Sys2Proof.core (es.length + 1) s = .next t ∧ t.schedule = rest ∧
      t.reads = s.reads ++ (List.range (es.count .busRead)).map (streamByte
        #v[hiByte s.pos.c, loByte s.pos.c, hiByte s.pos.b, loByte s.pos.b, hiByte s.pos.a, loByte s.pos.a])

/-- Until an ENCODER_READ runs, the snapshot stays zero and exhausted and every read returns 0. It rests on the spec's
decision D15 for the reset values (log entry 9). From 10_state.md section 9, 42_bus_transport.md section 3. -/
def Obligations.ReadsZeroBeforeFirstSnapshot : Prop :=
  NoSnapshotYet State.reset ∧
  ∀ (i : Instr) (s : State), NoSnapshotYet s → i ≠ .encoderRead →
    ¬(i = .dispatch ∧ s.nd = true ∧ s.cmd[0] = Config.chip.opcEncoderRead) →
    ∃ t : State, exec i s = .next t ∧ NoSnapshotYet t ∧ (i = .busRead → t.reads = s.reads ++ [0])

/-- DISPATCH: nothing if nd = 0; else it clears nd, keeps cmd, and runs the command that cmd[0] selects. For every
configuration the four-way choice of the pseudocode; `exec` runs it at the configuration of the chip. Stated by R170.
-/
def Obligations.DispatchClearsAndSelects : Prop :=
  (∀ s : State, s.nd = false → exec .dispatch s = .next s) ∧
  (∀ s : State, s.nd = true → ∃ t : State, exec .dispatch s = .next t ∧ t.nd = false ∧ t.cmd = s.cmd) ∧
  (∀ s : State, exec .dispatch s = .next (dispatchWith Config.chip s)) ∧
  (∀ (cfg : Config) (s : State), s.nd = true → dispatchWith cfg s =
    if s.cmd[0] = cfg.opcMotorSpeedSet then
      doMotorSpeedSet cfg s.cmd[1] s.cmd[2] s.cmd[3] s.cmd[4] { s with nd := false }
    else if s.cmd[0] = cfg.opcSetSolidColour then
      doSetSolidColour cfg s.cmd[1] s.cmd[2] s.cmd[3] s.cmd[4] { s with nd := false }
    else if s.cmd[0] = cfg.opcEncoderRead then doEncoderRead cfg { s with nd := false }
    else failsafe cfg { s with nd := false })

/-- A second DISPATCH after a DISPATCH, with no write between, does nothing. Whatever runs between them but a write:
the flag stays clear and the dispatcher finds nothing. From 43_command_dispatcher.md section 1. -/
def Obligations.CommandDispatchedAtMostOnce : Prop :=
  ∀ (s : State) (es : List Event), (∀ e ∈ es, ∀ w, e ≠ .busWrite w) →
    s.schedule = .dispatch :: es →
    ∃ t : State, Host.Core.run Sys2Proof.core (es.length + 1) s = .next t ∧ t.nd = false ∧
      exec .dispatch t = .next t

/-- From every state, once the scheduled events are served one more step leaves the flag clear. Fairness (D24) in the
model: a schedule is finite, and the dispatcher acts when it is exhausted (log entry 20). From 70_reset_and_hazards.md
section 4, 92_eei_decisions.md D24. -/
def Obligations.FlagEventuallyDispatched : Prop :=
  ∀ s : State, ∃ t : State, Host.Core.run Sys2Proof.core (s.schedule.length + 1) s = .next t ∧
    t.schedule = [] ∧ t.nd = false

/-- MOTOR_SPEED_SET with a good checksum emits Motor 0, 1, 2 with value - 128, then the light pattern. The order of
the events and the opaque light event are the spec's decisions D18 and D19 (log entry 17). From
43_command_dispatcher.md section 3, 92_eei_decisions.md D18, 92_eei_decisions.md D19. -/
def Obligations.MotorSpeedSetDrivesChannels : Prop :=
  ∀ (a b c : Byte) (s : State),
    exec (.motorSpeedSet a b c (Config.chip.opcMotorSpeedSet ^^^ a ^^^ b ^^^ c)) s = .next { s with
      nd := false
      events := s.events ++ [.motor 0 ((a.toNat : Int) - 128), .motor 1 ((b.toNat : Int) - 128),
        .motor 2 ((c.toNat : Int) - 128), .lightMotorPattern a b c] }

/-- A motor payload byte v means the speed v - 128: a bijection onto -128..127; channel k takes payload byte k. No
payload byte is rejected: with its checksum any three bytes are commanded, and nothing else is. That the speed is also
`sext_8(cmd[1+k] ^ 0x80)` is the spec's own inference, marked "[derived: from the definition of sext_8 in
00_scope.md]" in R84. From 30_encoding.md section 2, 43_command_dispatcher.md section 3. -/
def Obligations.PayloadBytesAreBiasedSpeeds : Prop :=
  (∀ v : Byte, speedOf v = (v.toNat : Int) - 128 ∧ -128 ≤ speedOf v ∧ speedOf v ≤ 127 ∧
    speedOf v = (v ^^^ 0x80).toInt) ∧
  (∀ z : Int, -128 ≤ z → z ≤ 127 → ∃! v : Byte, speedOf v = z) ∧
  (∀ s : State, s.nd = true → s.cmd[0] = Config.chip.opcMotorSpeedSet →
    s.cmd[0] ^^^ s.cmd[1] ^^^ s.cmd[2] ^^^ s.cmd[3] = s.cmd[4] →
    ∃ (t : State) (es : List OutEvent), exec .dispatch s = .next t ∧ t.events = s.events ++ es ∧
      ∀ (ch : Fin 3) (z : Int), OutEvent.motor ch z ∈ es ↔
        z = speedOf (s.cmd[1 + ch.val]))

/-- A bad checksum makes MOTOR_SPEED_SET and SET_SOLID_COLOUR do nothing but clear nd; no fail-safe. No event at all
is emitted, so no fail-safe, and no register but the flag changes. Stated by R176. -/
def Obligations.BadChecksumDropsCommand : Prop :=
  (∀ (a b c k : Byte) (s : State), Config.chip.opcMotorSpeedSet ^^^ a ^^^ b ^^^ c ≠ k →
    exec (.motorSpeedSet a b c k) s = .next { s with nd := false }) ∧
  (∀ (r g b k : Byte) (s : State), Config.chip.opcSetSolidColour ^^^ r ^^^ g ^^^ b ≠ k →
    exec (.setSolidColour r g b k) s = .next { s with nd := false })

/-- SET_SOLID_COLOUR with a good checksum emits the literal colour and no motor event; else nothing. The whole next
state in both cases; `events` is the observation of 00_scope.md R12(a) (log entry 5). Stated by R177. -/
def Obligations.SetSolidColourEmitsLiteral : Prop :=
  ∀ (r g b k : Byte) (s : State), exec (.setSolidColour r g b k) s = .next { s with
    nd := false
    events := s.events ++
      (if Config.chip.opcSetSolidColour ^^^ r ^^^ g ^^^ b = k then [.lightSolid ⟨r, g, b⟩] else []) }

/-- ENCODER_READ copies the counters to snap big-endian in the order C, B, A and sets cur to 0; counters stay. The six
bytes by the rule's shift and mask; nothing but `snap`, `cur` and `nd` changes. Stated by R179. -/
def Obligations.EncoderReadLatchesCounters : Prop :=
  ∀ s : State, ∃ t : State, exec .encoderRead s = .next t ∧
    t.snap[0].toNat = s.pos.c.toNat >>> 8 ∧ t.snap[1].toNat = s.pos.c.toNat &&& 0xFF ∧
    t.snap[2].toNat = s.pos.b.toNat >>> 8 ∧ t.snap[3].toNat = s.pos.b.toNat &&& 0xFF ∧
    t.snap[4].toNat = s.pos.a.toNat >>> 8 ∧ t.snap[5].toNat = s.pos.a.toNat &&& 0xFF ∧
    t = { s with snap := t.snap, cur := 0, nd := false }

/-- Each byte pair of a snapshot is one whole counter value, with or without cross-axis coherence. Coherent (the
default): the three values of one point of the run. Not coherent (D14, log entry 12): C before, B after the first and
A after the second group of interleaved samples. From 20_memory.md section 3, 92_eei_decisions.md D14. -/
def Obligations.SnapshotNeverTorn : Prop :=
  ∀ (cfg : Config) (s : State),
    (cfg.snapshotCoherent = true → let t := doEncoderRead cfg s
      t.snap[0] ++ t.snap[1] = s.pos.c ∧ t.snap[2] ++ t.snap[3] = s.pos.b ∧ t.snap[4] ++ t.snap[5] = s.pos.a ∧
      t.pos = s.pos ∧ t.enc = s.enc) ∧
    (cfg.snapshotCoherent = false → let t := doEncoderRead cfg s
      let s1 := sampleAll cfg s.midCopy.afterC s
      let s2 := sampleAll cfg (s.midCopy.afterC ++ s.midCopy.afterB) s
      t.snap[0] ++ t.snap[1] = s.pos.c ∧ t.snap[2] ++ t.snap[3] = s1.pos.b ∧
      t.snap[4] ++ t.snap[5] = s2.pos.a ∧ t.pos = s2.pos ∧ t.enc = s2.enc ∧ t.cur = 0)

/-- Every opcode that is none of the three commands all motors to 0 and sets the error colour. Whatever the payload
and the checksum byte, up to the order of the four events (`events` is the observation of 00_scope.md R12(a), log
entry 5); DISPATCH takes this path for every such `cmd[0]`. Stated by R180. -/
def Obligations.UnrecognizedOpcodeStopsMotors : Prop :=
  (∀ (o : Byte) (s : State), ∃ (t : State) (es : List OutEvent), exec (.unrecognized o) s = .next t ∧
    es.Perm [.motor 0 0, .motor 1 0, .motor 2 0, .lightSolid Config.chip.errRgb] ∧
    t = { s with nd := false, events := s.events ++ es }) ∧
  (∀ s : State, s.nd = true → s.cmd[0] ≠ Config.chip.opcMotorSpeedSet →
    s.cmd[0] ≠ Config.chip.opcSetSolidColour → s.cmd[0] ≠ Config.chip.opcEncoderRead →
    exec .dispatch s = exec (.unrecognized s.cmd[0]) s)

/-- The fail-safe emits Motor 0, 1, 2 at 0 then the error colour, changes no register, and does not latch. The order
is the spec's decision D18 (log entry 17); the colour is the free parameter of D20 (log entry 4), so this holds for
every colour. A motor command with a good checksum right after it emits exactly its own four events and a colour
command its own one, in the order of log entry 17 (D18, D19). From 43_command_dispatcher.md section 5,
60_exceptions.md section 5, 92_eei_decisions.md D18, 92_eei_decisions.md D19, 92_eei_decisions.md D20. -/
def Obligations.FailsafeEventsAndNoLatch : Prop :=
  (∀ (cfg : Config) (s : State), failsafe cfg s = { s with
    events := s.events ++ [.motor 0 0, .motor 1 0, .motor 2 0, .lightSolid cfg.errRgb] }) ∧
  (∀ (o : Byte) (s : State), ∃ s1 : State, exec (.unrecognized o) s = .next s1 ∧
    s1 = failsafe Config.chip { s with nd := false } ∧
    (∀ a b c : Byte, exec (.motorSpeedSet a b c (Config.chip.opcMotorSpeedSet ^^^ a ^^^ b ^^^ c)) s1 =
      .next { s1 with events := s1.events ++ [.motor 0 ((a.toNat : Int) - 128), .motor 1 ((b.toNat : Int) - 128),
        .motor 2 ((c.toNat : Int) - 128), .lightMotorPattern a b c] }) ∧
    (∀ r g b : Byte, exec (.setSolidColour r g b (Config.chip.opcSetSolidColour ^^^ r ^^^ g ^^^ b)) s1 =
      .next { s1 with events := s1.events ++ [.lightSolid ⟨r, g, b⟩] }))

/-- Flipping any one bit of any of the five bytes of a good F5 frame makes the checksum fail. The spec derives it from
the XOR. From 30_encoding.md section 2. -/
def Obligations.ChecksumDetectsEveryBitFlip : Prop :=
  ∀ (f : Frame) (i : Fin 5) (j : Fin 8), checksumOk f[0] f[1] f[2] f[3] f[4] = true →
    let g : Frame := f.set i (f[i] ^^^ ((1 : Byte) <<< j.val))
    checksumOk g[0] g[1] g[2] g[3] g[4] = false

/-- One flipped opcode bit of a good motor frame: bit 0 drops it, bit 1 runs ENCODER_READ, any other stops the motors.
With the default opcodes, which are the spec's decision D8 (log entry 3). From 43_command_dispatcher.md section 6. -/
def Obligations.OpcodeBitFlipOutcomes : Prop :=
  ∀ (a b c : Byte) (j : Fin 8) (s : State), s.nd = true →
    s.cmd = frameF5 ((0x20 : Byte) ^^^ ((1 : Byte) <<< j.val)) a b c (0x20 ^^^ a ^^^ b ^^^ c) →
    exec .dispatch s =
      if j.val = 0 then .next { s with nd := false }
      else if j.val = 1 then exec .encoderRead s
      else exec (.unrecognized (0x20 ^^^ ((1 : Byte) <<< j.val))) s

/-- A one-byte write is dispatched with the four old bytes: a stale good motor tail runs again, a stale colour fails.
Stale bytes are the spec's decision D10 (log entry 16), the literal opcodes 0x20 and 0x21 its decision D8 (log entry
3), the order of the motor events and the opaque light event its decisions D18 and D19 (log entry 17). `cmd` holds a
good motor frame before the write. From 43_command_dispatcher.md section 6, 92_eei_decisions.md D8,
92_eei_decisions.md D10, 92_eei_decisions.md D18, 92_eei_decisions.md D19. -/
def Obligations.StaleTailIsValidated : Prop :=
  ∀ (a b c : Byte) (s : State), s.cmd = frameF5 0x20 a b c (0x20 ^^^ a ^^^ b ^^^ c) →
    ∃ s1 s2 : State, exec (.busWrite [0x20]) s = .next s1 ∧ exec (.busWrite [0x21]) s = .next s2 ∧
      exec .dispatch s1 = .next { s with events := s.events ++ [.motor 0 ((a.toNat : Int) - 128),
        .motor 1 ((b.toNat : Int) - 128), .motor 2 ((c.toNat : Int) - 128), .lightMotorPattern a b c], nd := false } ∧
      exec .dispatch s2 = .next { s with cmd := frameF5 0x21 a b c (0x20 ^^^ a ^^^ b ^^^ c), nd := false }

/-- A frame of any length with an unrecognized first byte stops the motors, whatever its other bytes. The order of
checks the spec derives: truncation, opcode, and no checksum. The order of the four events is the spec's decision D18
(log entry 17). From 60_exceptions.md section 3, 92_eei_decisions.md D18. -/
def Obligations.OverlongUnrecognizedFrameFailsSafe : Prop :=
  ∀ (o : Byte) (w : List Byte) (s : State), Config.chip.isOpcode o = false →
    ∃ s1 t : State, exec (.busWrite (o :: w)) s = .next s1 ∧ exec .dispatch s1 = .next t ∧
      t = { s1 with nd := false, events := s.events ++ failsafeEvents Config.chip }

/-- Each command as a host spells it (R94), written and then dispatched, has its effect; READ_ENCODERS returns the six
bytes. From every state and for every operand: raw and signed motor speeds, the colour, ENCODER_READ, and the pseudo-
commands STOP and READ_ENCODERS. The order of the events and the opaque light event are the spec's decisions D18 and
D19 (log entry 17), the error colour of STOP is free (D20, log entry 4), `events` and `reads` are the observation (log
entry 5), and the chip copies the three counters at one point (D14, log entry 3). From 30_encoding.md section 6,
43_command_dispatcher.md section 3, 43_command_dispatcher.md section 4, 92_eei_decisions.md D18, 92_eei_decisions.md
D19, 92_eei_decisions.md D20. -/
def Obligations.HostCommandsExecute : Prop :=
  ∀ (s : State) (rest : List Event),
    (∀ b1 b2 b3 : Byte, s.schedule = .busWrite (motorSpeedSetBytes Config.chip b1 b2 b3) :: .dispatch :: rest →
      ∃ t : State, Host.Core.run Sys2Proof.core 2 s = .next t ∧ t.nd = false ∧ t.schedule = rest ∧
        t.events = s.events ++ [.motor 0 ((b1.toNat : Int) - 128), .motor 1 ((b2.toNat : Int) - 128),
          .motor 2 ((b3.toNat : Int) - 128), .lightMotorPattern b1 b2 b3]) ∧
    (∀ s0 s1 s2 : Int, -128 ≤ s0 ∧ s0 ≤ 127 → -128 ≤ s1 ∧ s1 ≤ 127 → -128 ≤ s2 ∧ s2 ≤ 127 →
      s.schedule = .busWrite (motorSpeedSetSignedBytes Config.chip s0 s1 s2) :: .dispatch :: rest →
      ∃ t : State, Host.Core.run Sys2Proof.core 2 s = .next t ∧ t.nd = false ∧ t.schedule = rest ∧
        t.events = s.events ++ [.motor 0 s0, .motor 1 s1, .motor 2 s2, .lightMotorPattern
          (BitVec.ofInt 8 (s0 + 128)) (BitVec.ofInt 8 (s1 + 128)) (BitVec.ofInt 8 (s2 + 128))]) ∧
    (∀ r g b : Byte, s.schedule = .busWrite (setSolidColourBytes Config.chip r g b) :: .dispatch :: rest →
      ∃ t : State, Host.Core.run Sys2Proof.core 2 s = .next t ∧ t.nd = false ∧ t.schedule = rest ∧
        t.events = s.events ++ [.lightSolid ⟨r, g, b⟩]) ∧
    (s.schedule = .busWrite (encoderReadBytes Config.chip) :: .dispatch :: rest →
      ∃ t : State, Host.Core.run Sys2Proof.core 2 s = .next t ∧ t.nd = false ∧ t.schedule = rest ∧
        t.snap = #v[hiByte s.pos.c, loByte s.pos.c, hiByte s.pos.b, loByte s.pos.b, hiByte s.pos.a, loByte s.pos.a] ∧
        t.cur = 0 ∧ t.pos = s.pos ∧ t.events = s.events) ∧
    (s.schedule = .busWrite (encoderReadBytes Config.chip) :: .dispatch :: (List.replicate 6 .busRead ++ rest) →
      ∃ t : State, Host.Core.run Sys2Proof.core 8 s = .next t ∧ t.schedule = rest ∧ t.cur = 6 ∧
        t.reads = s.reads ++
          [hiByte s.pos.c, loByte s.pos.c, hiByte s.pos.b, loByte s.pos.b, hiByte s.pos.a, loByte s.pos.a]) ∧
    (s.schedule = .busWrite stopBytes :: .dispatch :: rest →
      ∃ t : State, Host.Core.run Sys2Proof.core 2 s = .next t ∧ t.nd = false ∧ t.schedule = rest ∧
        t.events = s.events ++ failsafeEvents Config.chip)

/-- Which operation may write what: each register only its owner, each observation only its operation. RESET aside
(log entry 11) each part of the state has the writers 20_memory.md section 10 names; observations only grow; the
model's own inputs are never touched by an operation (log entries 2, 5, 6, 12). From 20_memory.md section 10,
10_state.md section 1. -/
def Obligations.StateOwnership : Prop :=
  ∀ (i : Instr) (s : State), ∃ t : State, exec i s = .next t ∧
    ((∀ p, i ≠ .sample p) → i ≠ .reset → t.pos = s.pos ∧ t.enc = s.enc) ∧
    ((∀ w, i ≠ .busWrite w) → i ≠ .reset → t.cmd = s.cmd) ∧
    ((∀ w, i ≠ .busWrite w) → t.nd = true → s.nd = true) ∧
    (i = .busRead ∨ (∃ p, i = .sample p) ∨ (∃ a b, i = .diff a b) → t.nd = s.nd) ∧
    (i ≠ .encoderRead → ¬(i = .dispatch ∧ s.nd = true ∧ s.cmd[0] = Config.chip.opcEncoderRead) → i ≠ .reset →
      t.snap = s.snap ∧ (i ≠ .busRead → t.cur = s.cur)) ∧
    ((∃ w, i = .busWrite w) ∨ i = .busRead ∨ (∃ p, i = .sample p) ∨ (∃ a b, i = .diff a b) ∨ i = .reset ∨
      i = .encoderRead → t.events = s.events) ∧
    (i ≠ .busRead → t.reads = s.reads) ∧ ((∀ a b, i ≠ .diff a b) → t.diffs = s.diffs) ∧
    s.events <+: t.events ∧ s.reads <+: t.reads ∧ s.diffs <+: t.diffs ∧
    t.schedule = s.schedule ∧ t.midCopy = s.midCopy

/-- Only ENCODER_READ lets the counters, and only SAMPLE lets the retained readings, affect anything else. Two runs of
an operation from states that differ in the counters alone end in states that differ in the counters alone; likewise
for the readings. From 10_state.md section 1, 10_state.md section 5. -/
def Obligations.CountersLeakOnlyThroughSnapshot : Prop :=
  (∀ (i : Instr) (s : State) (v : PerAxis Count), i ≠ .encoderRead →
    ¬(i = .dispatch ∧ s.nd = true ∧ s.cmd[0] = Config.chip.opcEncoderRead) →
    ∃ t t' : State, exec i s = .next t ∧ exec i { s with pos := v } = .next t' ∧ t' = { t with pos := t'.pos }) ∧
  (∀ (i : Instr) (s : State) (v : PerAxis Quad), (∀ p, i ≠ .sample p) →
    ∃ t t' : State, exec i s = .next t ∧ exec i { s with enc := v } = .next t' ∧ t' = { t with enc := t'.enc })

/-- RESET puts every register at its reset value and emits nothing; State.reset holds those values. The counters' 0 is
the source's; the other values are the spec's decisions D7, D15, D16 (log entries 7, 8, 9); that the observation and
the inputs stay is the model's choice (log entry 11). From 70_reset_and_hazards.md section 1, 92_eei_decisions.md D7,
92_eei_decisions.md D15, 92_eei_decisions.md D16. -/
def Obligations.ResetRestoresRegisters : Prop :=
  (∀ s : State, exec .reset s = .next { s with
    pos := ⟨0, 0, 0⟩, enc := ⟨0, 0, 0⟩, cmd := #v[0, 0, 0, 0, 0], nd := false,
    snap := #v[0, 0, 0, 0, 0, 0], cur := 6 }) ∧
  State.reset.pos = ⟨0, 0, 0⟩ ∧ State.reset.enc = ⟨0, 0, 0⟩ ∧ State.reset.cmd = #v[0, 0, 0, 0, 0] ∧
  State.reset.nd = false ∧ State.reset.snap = #v[0, 0, 0, 0, 0, 0] ∧ State.reset.cur = 6 ∧
  State.reset.events = [] ∧ State.reset.reads = []

/-- Every step keeps the ranges: cursor at most 6, every commanded speed in -128..127, every DIFF result 16-bit. From
every state that meets them, whatever is scheduled; the spec infers the cursor's range (10_state.md section 9). From
10_state.md section 9, 43_command_dispatcher.md section 3, 41_position_counters.md section 2. -/
def Obligations.StateRangesKept : Prop :=
  ∀ s t : State, Inv s → step s = .next t → Inv t

/-- The state after reset meets the ranges StateRangesKept keeps, and so does any state RESET leaves from one. The
reset values are the spec's (log entry 9 for the cursor). From 10_state.md section 9, 70_reset_and_hazards.md section
1. -/
def Obligations.ResetMeetsStateRanges : Prop :=
  Inv State.reset ∧ ∀ s : State, Inv s → ∃ t : State, exec .reset s = .next t ∧ Inv t

/-- For every admissible configuration, decoding the code of any well-formed operation gives it back. Every operand at
every value. ENCODER_READ and UNRECOGNIZED moreover decode alike whatever the four bytes the format ignores. From
30_encoding.md section 1, 30_encoding.md section 3. -/
def Obligations.DecodeInvertsEncode : Prop :=
  (∀ (cfg : Config) (i : Instr), cfg.Admissible → i.wellFormed cfg = true → decode cfg (encode cfg i) = i) ∧
  (∀ (cfg : Config) (x1 x2 x3 x4 : Byte), cfg.Admissible →
    decodeFrame cfg #v[cfg.opcEncoderRead, x1, x2, x3, x4] = .encoderRead ∧
    ∀ o : Byte, cfg.isOpcode o = false → decodeFrame cfg #v[o, x1, x2, x3, x4] = .unrecognized o)

/-- Words written out from the encoding tables decode to the operations they stand for. The byte first on the bus
stands in the most significant bits, as spec/opcode_table.json numbers a frame (log entry 25); opcodes at their
defaults (D8, log entry 3). From 30_encoding.md section 3, 95_test_vectors.md part 2. -/
def Obligations.TableWordsDecode : Prop :=
  decodeTableWord 40 0x20946C8058 = some (.motorSpeedSet 148 108 128 0x58) ∧
  decodeTableWord 40 0x21FF80005E = some (.setSolidColour 255 128 0 0x5E) ∧
  decodeTableWord 8 0x22 = some .encoderRead ∧ decodeTableWord 8 0xFF = some (.unrecognized 0xFF) ∧
  decodeTableWord 40 0x22DEADBEEF = some .encoderRead ∧
  decodeTableWord 32 0xFFFA0005 = some (.diff 65530 5)
end

