-- ==== Sys2Proof/Laws/State.lean ====
section
/-! SUPPORT. What each update of the state does to each field, so that no later proof unfolds a record update. -/

namespace Sys2Proof.Machine

variable (s : State)

@[simp] theorem State.raiseNd_pos : (s.raiseNd).pos = s.pos := rfl
@[simp] theorem State.raiseNd_enc : (s.raiseNd).enc = s.enc := rfl
@[simp] theorem State.raiseNd_cmd : (s.raiseNd).cmd = s.cmd := rfl
@[simp] theorem State.raiseNd_nd : (s.raiseNd).nd = true := rfl
@[simp] theorem State.raiseNd_snap : (s.raiseNd).snap = s.snap := rfl
@[simp] theorem State.raiseNd_cur : (s.raiseNd).cur = s.cur := rfl
@[simp] theorem State.raiseNd_events : (s.raiseNd).events = s.events := rfl
@[simp] theorem State.raiseNd_reads : (s.raiseNd).reads = s.reads := rfl
@[simp] theorem State.raiseNd_diffs : (s.raiseNd).diffs = s.diffs := rfl
@[simp] theorem State.raiseNd_schedule : (s.raiseNd).schedule = s.schedule := rfl
@[simp] theorem State.raiseNd_midCopy : (s.raiseNd).midCopy = s.midCopy := rfl

@[simp] theorem State.clearNd_pos : (s.clearNd).pos = s.pos := rfl
@[simp] theorem State.clearNd_enc : (s.clearNd).enc = s.enc := rfl
@[simp] theorem State.clearNd_cmd : (s.clearNd).cmd = s.cmd := rfl
@[simp] theorem State.clearNd_nd : (s.clearNd).nd = false := rfl
@[simp] theorem State.clearNd_snap : (s.clearNd).snap = s.snap := rfl
@[simp] theorem State.clearNd_cur : (s.clearNd).cur = s.cur := rfl
@[simp] theorem State.clearNd_events : (s.clearNd).events = s.events := rfl
@[simp] theorem State.clearNd_reads : (s.clearNd).reads = s.reads := rfl
@[simp] theorem State.clearNd_diffs : (s.clearNd).diffs = s.diffs := rfl
@[simp] theorem State.clearNd_schedule : (s.clearNd).schedule = s.schedule := rfl
@[simp] theorem State.clearNd_midCopy : (s.clearNd).midCopy = s.midCopy := rfl

@[simp] theorem State.emit_pos (es : List OutEvent) : (s.emit es).pos = s.pos := rfl
@[simp] theorem State.emit_enc (es : List OutEvent) : (s.emit es).enc = s.enc := rfl
@[simp] theorem State.emit_cmd (es : List OutEvent) : (s.emit es).cmd = s.cmd := rfl
@[simp] theorem State.emit_nd (es : List OutEvent) : (s.emit es).nd = s.nd := rfl
@[simp] theorem State.emit_snap (es : List OutEvent) : (s.emit es).snap = s.snap := rfl
@[simp] theorem State.emit_cur (es : List OutEvent) : (s.emit es).cur = s.cur := rfl
@[simp] theorem State.emit_events (es : List OutEvent) : (s.emit es).events = s.events ++ es := rfl
@[simp] theorem State.emit_reads (es : List OutEvent) : (s.emit es).reads = s.reads := rfl
@[simp] theorem State.emit_diffs (es : List OutEvent) : (s.emit es).diffs = s.diffs := rfl
@[simp] theorem State.emit_schedule (es : List OutEvent) : (s.emit es).schedule = s.schedule := rfl
@[simp] theorem State.emit_midCopy (es : List OutEvent) : (s.emit es).midCopy = s.midCopy := rfl

@[simp] theorem State.returnByte_pos (d : Byte) : (s.returnByte d).pos = s.pos := rfl
@[simp] theorem State.returnByte_enc (d : Byte) : (s.returnByte d).enc = s.enc := rfl
@[simp] theorem State.returnByte_cmd (d : Byte) : (s.returnByte d).cmd = s.cmd := rfl
@[simp] theorem State.returnByte_nd (d : Byte) : (s.returnByte d).nd = s.nd := rfl
@[simp] theorem State.returnByte_snap (d : Byte) : (s.returnByte d).snap = s.snap := rfl
@[simp] theorem State.returnByte_cur (d : Byte) : (s.returnByte d).cur = s.cur := rfl
@[simp] theorem State.returnByte_events (d : Byte) : (s.returnByte d).events = s.events := rfl
@[simp] theorem State.returnByte_reads (d : Byte) : (s.returnByte d).reads = s.reads ++ [d] := rfl
@[simp] theorem State.returnByte_diffs (d : Byte) : (s.returnByte d).diffs = s.diffs := rfl
@[simp] theorem State.returnByte_schedule (d : Byte) : (s.returnByte d).schedule = s.schedule := rfl
@[simp] theorem State.returnByte_midCopy (d : Byte) : (s.returnByte d).midCopy = s.midCopy := rfl

@[simp] theorem State.returnDiff_pos (d : Int) : (s.returnDiff d).pos = s.pos := rfl
@[simp] theorem State.returnDiff_enc (d : Int) : (s.returnDiff d).enc = s.enc := rfl
@[simp] theorem State.returnDiff_cmd (d : Int) : (s.returnDiff d).cmd = s.cmd := rfl
@[simp] theorem State.returnDiff_nd (d : Int) : (s.returnDiff d).nd = s.nd := rfl
@[simp] theorem State.returnDiff_snap (d : Int) : (s.returnDiff d).snap = s.snap := rfl
@[simp] theorem State.returnDiff_cur (d : Int) : (s.returnDiff d).cur = s.cur := rfl
@[simp] theorem State.returnDiff_events (d : Int) : (s.returnDiff d).events = s.events := rfl
@[simp] theorem State.returnDiff_reads (d : Int) : (s.returnDiff d).reads = s.reads := rfl
@[simp] theorem State.returnDiff_diffs (d : Int) : (s.returnDiff d).diffs = s.diffs ++ [d] := rfl
@[simp] theorem State.returnDiff_schedule (d : Int) : (s.returnDiff d).schedule = s.schedule := rfl
@[simp] theorem State.returnDiff_midCopy (d : Int) : (s.returnDiff d).midCopy = s.midCopy := rfl

@[simp] theorem State.writeAxes_pos (v : PerAxis Count) (n : PerAxis Quad) : (s.writeAxes v n).pos = v := rfl
@[simp] theorem State.writeAxes_enc (v : PerAxis Count) (n : PerAxis Quad) : (s.writeAxes v n).enc = n := rfl
@[simp] theorem State.writeAxes_cmd (v : PerAxis Count) (n : PerAxis Quad) : (s.writeAxes v n).cmd = s.cmd := rfl
@[simp] theorem State.writeAxes_nd (v : PerAxis Count) (n : PerAxis Quad) : (s.writeAxes v n).nd = s.nd := rfl
@[simp] theorem State.writeAxes_snap (v : PerAxis Count) (n : PerAxis Quad) : (s.writeAxes v n).snap = s.snap := rfl
@[simp] theorem State.writeAxes_cur (v : PerAxis Count) (n : PerAxis Quad) : (s.writeAxes v n).cur = s.cur := rfl
@[simp] theorem State.writeAxes_events (v : PerAxis Count) (n : PerAxis Quad) : (s.writeAxes v n).events = s.events := rfl
@[simp] theorem State.writeAxes_reads (v : PerAxis Count) (n : PerAxis Quad) : (s.writeAxes v n).reads = s.reads := rfl
@[simp] theorem State.writeAxes_diffs (v : PerAxis Count) (n : PerAxis Quad) : (s.writeAxes v n).diffs = s.diffs := rfl
@[simp] theorem State.writeAxes_schedule (v : PerAxis Count) (n : PerAxis Quad) : (s.writeAxes v n).schedule = s.schedule := rfl
@[simp] theorem State.writeAxes_midCopy (v : PerAxis Count) (n : PerAxis Quad) : (s.writeAxes v n).midCopy = s.midCopy := rfl

@[simp] theorem State.writeCmd_pos (w : List Byte) : (s.writeCmd w).pos = s.pos := rfl
@[simp] theorem State.writeCmd_enc (w : List Byte) : (s.writeCmd w).enc = s.enc := rfl
@[simp] theorem State.writeCmd_cmd (w : List Byte) : (s.writeCmd w).cmd = Vector.ofFn fun i => w.getD i.val s.cmd[i] := rfl
@[simp] theorem State.writeCmd_nd (w : List Byte) : (s.writeCmd w).nd = s.nd := rfl
@[simp] theorem State.writeCmd_snap (w : List Byte) : (s.writeCmd w).snap = s.snap := rfl
@[simp] theorem State.writeCmd_cur (w : List Byte) : (s.writeCmd w).cur = s.cur := rfl
@[simp] theorem State.writeCmd_events (w : List Byte) : (s.writeCmd w).events = s.events := rfl
@[simp] theorem State.writeCmd_reads (w : List Byte) : (s.writeCmd w).reads = s.reads := rfl
@[simp] theorem State.writeCmd_diffs (w : List Byte) : (s.writeCmd w).diffs = s.diffs := rfl
@[simp] theorem State.writeCmd_schedule (w : List Byte) : (s.writeCmd w).schedule = s.schedule := rfl
@[simp] theorem State.writeCmd_midCopy (w : List Byte) : (s.writeCmd w).midCopy = s.midCopy := rfl

@[simp] theorem State.latch_pos (vc vb va : Count) : (s.latch vc vb va).pos = s.pos := rfl
@[simp] theorem State.latch_enc (vc vb va : Count) : (s.latch vc vb va).enc = s.enc := rfl
@[simp] theorem State.latch_cmd (vc vb va : Count) : (s.latch vc vb va).cmd = s.cmd := rfl
@[simp] theorem State.latch_nd (vc vb va : Count) : (s.latch vc vb va).nd = s.nd := rfl
@[simp] theorem State.latch_snap (vc vb va : Count) : (s.latch vc vb va).snap = snapshotBytes vc vb va := rfl
@[simp] theorem State.latch_cur (vc vb va : Count) : (s.latch vc vb va).cur = 0 := rfl
@[simp] theorem State.latch_events (vc vb va : Count) : (s.latch vc vb va).events = s.events := rfl
@[simp] theorem State.latch_reads (vc vb va : Count) : (s.latch vc vb va).reads = s.reads := rfl
@[simp] theorem State.latch_diffs (vc vb va : Count) : (s.latch vc vb va).diffs = s.diffs := rfl
@[simp] theorem State.latch_schedule (vc vb va : Count) : (s.latch vc vb va).schedule = s.schedule := rfl
@[simp] theorem State.latch_midCopy (vc vb va : Count) : (s.latch vc vb va).midCopy = s.midCopy := rfl

@[simp] theorem State.advanceCur_pos : (s.advanceCur).pos = s.pos := rfl
@[simp] theorem State.advanceCur_enc : (s.advanceCur).enc = s.enc := rfl
@[simp] theorem State.advanceCur_cmd : (s.advanceCur).cmd = s.cmd := rfl
@[simp] theorem State.advanceCur_nd : (s.advanceCur).nd = s.nd := rfl
@[simp] theorem State.advanceCur_snap : (s.advanceCur).snap = s.snap := rfl
@[simp] theorem State.advanceCur_cur : (s.advanceCur).cur = s.cur + 1 := rfl
@[simp] theorem State.advanceCur_events : (s.advanceCur).events = s.events := rfl
@[simp] theorem State.advanceCur_reads : (s.advanceCur).reads = s.reads := rfl
@[simp] theorem State.advanceCur_diffs : (s.advanceCur).diffs = s.diffs := rfl
@[simp] theorem State.advanceCur_schedule : (s.advanceCur).schedule = s.schedule := rfl
@[simp] theorem State.advanceCur_midCopy : (s.advanceCur).midCopy = s.midCopy := rfl

@[simp] theorem State.dropMidCopy_pos : (s.dropMidCopy).pos = s.pos := rfl
@[simp] theorem State.dropMidCopy_enc : (s.dropMidCopy).enc = s.enc := rfl
@[simp] theorem State.dropMidCopy_cmd : (s.dropMidCopy).cmd = s.cmd := rfl
@[simp] theorem State.dropMidCopy_nd : (s.dropMidCopy).nd = s.nd := rfl
@[simp] theorem State.dropMidCopy_snap : (s.dropMidCopy).snap = s.snap := rfl
@[simp] theorem State.dropMidCopy_cur : (s.dropMidCopy).cur = s.cur := rfl
@[simp] theorem State.dropMidCopy_events : (s.dropMidCopy).events = s.events := rfl
@[simp] theorem State.dropMidCopy_reads : (s.dropMidCopy).reads = s.reads := rfl
@[simp] theorem State.dropMidCopy_diffs : (s.dropMidCopy).diffs = s.diffs := rfl
@[simp] theorem State.dropMidCopy_schedule : (s.dropMidCopy).schedule = s.schedule := rfl
@[simp] theorem State.dropMidCopy_midCopy : (s.dropMidCopy).midCopy = ⟨[], []⟩ := rfl

end Sys2Proof.Machine
end

