-- ==== Sys2Proof/Laws/Operands.lean ====
section
/-! SUPPORT. What the operand forms compute, said once. -/

namespace Sys2Proof.Machine

/-- A sample is bits `sh+1` and `sh` of the port byte (30_encoding.md R95). -/
theorem sample2_toNat (p : Byte) (sh : Fin 7) : (sample2 p sh).toNat = (p.toNat >>> sh.val) % 4 := by
  simp [sample2]

/-- Bit `k` of a sample is bit `sh + k` of the port byte. -/
theorem sample2_getLsbD (p : Byte) (sh : Fin 7) (k : Nat) (hk : k < 2) :
    (sample2 p sh).getLsbD k = p.getLsbD (sh.val + k) := by
  simp [sample2, hk]

/-- Every table entry is -1, 0 or +1 (40_quadrature_decoder.md R112). -/
theorem tStd_range : ∀ i : Fin 16, tStd[i] = -1 ∨ tStd[i] = 0 ∨ tStd[i] = 1 := by decide

/-- A counter update, read as an integer modulo 2^16 (41_position_counters.md R137). -/
theorem countAdd_eq (v : Count) (d : Int) : countAdd v d = v + BitVec.ofInt 16 d := by
  simp [countAdd, BitVec.ofInt_add]

/-- Two updates of a counter add up. -/
theorem countAdd_countAdd (v : Count) (d e : Int) : countAdd (countAdd v d) e = countAdd v (d + e) := by
  simp [countAdd_eq, BitVec.ofInt_add, BitVec.add_assoc]

@[simp] theorem countAdd_zero (v : Count) : countAdd v 0 = v := by simp [countAdd_eq]

/-- The two bytes of a counter, high byte first, are the counter (20_memory.md R50). -/
theorem hiByte_append_loByte (v : Count) : hiByte v ++ loByte v = v := by
  apply BitVec.eq_of_getLsbD_eq
  intro i hi
  simp only [hiByte, loByte, BitVec.getLsbD_append, BitVec.getLsbD_extractLsb']
  by_cases h : i < 8
  · simp [h]
  · have : i - 8 < 8 := by omega
    have h2 : 8 + (i - 8) = i := by omega
    simp [h, this, h2]

/-- The byte at each index of a snapshot (10_state.md R30). -/
theorem snapshotBytes_get (vc vb va : Count) :
    (snapshotBytes vc vb va)[0] = hiByte vc ∧ (snapshotBytes vc vb va)[1] = loByte vc ∧
    (snapshotBytes vc vb va)[2] = hiByte vb ∧ (snapshotBytes vc vb va)[3] = loByte vb ∧
    (snapshotBytes vc vb va)[4] = hiByte va ∧ (snapshotBytes vc vb va)[5] = loByte va :=
  ⟨rfl, rfl, rfl, rfl, rfl, rfl⟩

/-- What the checksum test says (43_command_dispatcher.md R174). -/
theorem checksumOk_iff (op p1 p2 p3 ck : Byte) :
    checksumOk op p1 p2 p3 ck = true ↔ op ^^^ p1 ^^^ p2 ^^^ p3 = ck := by
  simp [checksumOk, xorF5]

end Sys2Proof.Machine
end

