-- ==== Sys2Proof/Laws/Ops.lean ====
section
/-! SUPPORT. One lemma per shared operation: everything it can do. -/

namespace Sys2Proof.Machine

/-- A write fills the bytes it supplies and keeps the others (42_bus_transport.md R151, R153). -/
theorem writeCmd_get (s : State) (w : List Byte) (i : Nat) (hi : i < 5) :
    (s.writeCmd w).cmd[i] = w.getD i s.cmd[i] := by
  simp

/-- A frame decodes to exactly one of four commands, by its first byte (30_encoding.md R87, R88). -/
theorem decodeFrame_cases (cfg : Config) (f : Frame) :
    (f[0] = cfg.opcMotorSpeedSet ∧ decodeFrame cfg f = .motorSpeedSet f[1] f[2] f[3] f[4]) ∨
    (f[0] ≠ cfg.opcMotorSpeedSet ∧ f[0] = cfg.opcSetSolidColour ∧
      decodeFrame cfg f = .setSolidColour f[1] f[2] f[3] f[4]) ∨
    (f[0] ≠ cfg.opcMotorSpeedSet ∧ f[0] ≠ cfg.opcSetSolidColour ∧ f[0] = cfg.opcEncoderRead ∧
      decodeFrame cfg f = .encoderRead) ∨
    (f[0] ≠ cfg.opcMotorSpeedSet ∧ f[0] ≠ cfg.opcSetSolidColour ∧ f[0] ≠ cfg.opcEncoderRead ∧
      decodeFrame cfg f = .unrecognized f[0]) := by
  by_cases h1 : f[0] = cfg.opcMotorSpeedSet
  · exact .inl ⟨h1, by simp [decodeFrame, h1]⟩
  by_cases h2 : f[0] = cfg.opcSetSolidColour
  · exact .inr (.inl ⟨h1, h2, by rw [decodeFrame, if_neg h1, if_pos h2]⟩)
  by_cases h3 : f[0] = cfg.opcEncoderRead
  · exact .inr (.inr (.inl ⟨h1, h2, h3, by rw [decodeFrame, if_neg h1, if_neg h2, if_pos h3]⟩))
  · exact .inr (.inr (.inr ⟨h1, h2, h3, by rw [decodeFrame, if_neg h1, if_neg h2, if_neg h3]⟩))

/-- A motor command either emits its four events or does nothing (43_command_dispatcher.md R175, R176, R183). -/
theorem doMotorSpeedSet_cases (cfg : Config) (a b c k : Byte) (s : State) :
    (checksumOk cfg.opcMotorSpeedSet a b c k = true ∧ doMotorSpeedSet cfg a b c k s =
      s.emit [.motor 0 (speedOf a), .motor 1 (speedOf b), .motor 2 (speedOf c), .lightMotorPattern a b c]) ∨
    (checksumOk cfg.opcMotorSpeedSet a b c k = false ∧ doMotorSpeedSet cfg a b c k s = s) := by
  cases h : checksumOk cfg.opcMotorSpeedSet a b c k <;> simp [doMotorSpeedSet, h]

/-- A colour command either emits its event or does nothing (43_command_dispatcher.md R177, R176, R183). -/
theorem doSetSolidColour_cases (cfg : Config) (r g b k : Byte) (s : State) :
    (checksumOk cfg.opcSetSolidColour r g b k = true ∧ doSetSolidColour cfg r g b k s = s.emit [.lightSolid ⟨r, g, b⟩]) ∨
    (checksumOk cfg.opcSetSolidColour r g b k = false ∧ doSetSolidColour cfg r g b k s = s) := by
  cases h : checksumOk cfg.opcSetSolidColour r g b k <;> simp [doSetSolidColour, h]

/-- A coherent snapshot is one latch (20_memory.md R56). -/
theorem doEncoderRead_coherent (cfg : Config) (s : State) (h : cfg.snapshotCoherent = true) :
    doEncoderRead cfg s = s.latch s.pos.c s.pos.b s.pos.a := by
  simp [doEncoderRead, h]

/-- DISPATCH without a raised flag does nothing; with it, the decoded command acts on the cleared flag
(43_command_dispatcher.md R170). -/
theorem dispatchWith_cases (cfg : Config) (s : State) :
    (s.nd = false ∧ dispatchWith cfg s = s) ∨
    (s.nd = true ∧ dispatchWith cfg s = actCommand cfg s.clearNd (decodeFrame cfg s.cmd)) := by
  cases h : s.nd <;> simp [dispatchWith, h]

/-- SAMPLE touches `pos` and `enc` only (40_quadrature_decoder.md R116). -/
theorem sampleWith_frame (cfg : Config) (p : Byte) (s : State) :
    sampleWith cfg p s = { s with pos := (sampleWith cfg p s).pos, enc := (sampleWith cfg p s).enc } := rfl

/-- What SAMPLE does to one axis (40_quadrature_decoder.md R119). -/
theorem sampleWith_axis (cfg : Config) (p : Byte) (s : State) (x : Axis) :
    (sampleWith cfg p s).pos.get x =
      countAdd (s.pos.get x) (axisSign x * delta cfg (s.enc.get x) ((samples cfg p).get x)) ∧
    (sampleWith cfg p s).enc.get x = (samples cfg p).get x := by
  cases x <;> exact ⟨rfl, rfl⟩

/-- Samples in a row are the first and then the rest. -/
@[simp] theorem sampleAll_cons (cfg : Config) (p : Byte) (ps : List Byte) (s : State) :
    sampleAll cfg (p :: ps) s = sampleAll cfg ps (sampleWith cfg p s) := rfl

@[simp] theorem sampleAll_nil (cfg : Config) (s : State) : sampleAll cfg [] s = s := rfl

theorem sampleAll_append (cfg : Config) (ps qs : List Byte) (s : State) :
    sampleAll cfg (ps ++ qs) s = sampleAll cfg qs (sampleAll cfg ps s) := by
  simp [sampleAll]

/-- Samples neither read nor write the schedule. -/
theorem sampleAll_schedule (cfg : Config) (ps : List Byte) (s : State) (es : List Event) :
    sampleAll cfg ps { s with schedule := es } = { sampleAll cfg ps s with schedule := es } := by
  induction ps generalizing s with
  | nil => rfl
  | cons p ps ih => exact ih (sampleWith cfg p s)

/-- The meaning of a decoded frame is its action on the cleared flag. -/
theorem exec_decodeFrame (f : Frame) (s : State) :
    exec (decodeFrame Config.chip f) s = .next (actCommand Config.chip s.clearNd (decodeFrame Config.chip f)) := by
  rcases decodeFrame_cases Config.chip f with ⟨_, h⟩ | ⟨_, _, h⟩ | ⟨_, _, _, h⟩ | ⟨_, _, _, h⟩ <;> rw [h] <;> rfl

/-- What no command's action touches, under a coherent snapshot (20_memory.md R60). -/
theorem actCommand_frame (cfg : Config) (s : State) (f : Frame) (h : cfg.snapshotCoherent = true) :
    let t := actCommand cfg s (decodeFrame cfg f)
    t.pos = s.pos ∧ t.enc = s.enc ∧ t.cmd = s.cmd ∧ t.nd = s.nd ∧ t.reads = s.reads ∧ t.diffs = s.diffs ∧
    t.schedule = s.schedule ∧ t.midCopy = s.midCopy := by
  rcases decodeFrame_cases cfg f with ⟨_, e⟩ | ⟨_, _, e⟩ | ⟨_, _, _, e⟩ | ⟨_, _, _, e⟩ <;> rw [e] <;>
    simp only [actCommand]
  · rcases doMotorSpeedSet_cases cfg f[1] f[2] f[3] f[4] s with ⟨_, e⟩ | ⟨_, e⟩ <;> rw [e] <;> simp
  · rcases doSetSolidColour_cases cfg f[1] f[2] f[3] f[4] s with ⟨_, e⟩ | ⟨_, e⟩ <;> rw [e] <;> simp
  · rw [doEncoderRead_coherent cfg s h]; simp
  · simp [failsafe]

end Sys2Proof.Machine
end

