-- ==== Sys2Proof/Laws/PerInstr.lean ====
section
/-! SUPPORT. Statements about every operation, one lemma per constructor. -/

namespace Sys2Proof.Laws.ReencodedWellFormed

/-- Whatever operand an operation carries, its code decodes to a well-formed operation: in particular a frame never
decodes to UNRECOGNIZED with one of the three opcodes (30_encoding.md R87, R88). -/
def Statement (i : Instr) : Prop := ∀ cfg : Config, (decode cfg (encode cfg i)).wellFormed cfg = true

/-- A decoded frame is well formed. -/
theorem decodeFrame_wellFormed (cfg : Config) (f : Frame) : (decodeFrame cfg f).wellFormed cfg = true := by
  unfold decodeFrame
  split
  · rfl
  split
  · rfl
  split
  · rfl
  · simp_all [Instr.wellFormed, Config.isOpcode]

theorem motorSpeedSet (a b c k : Byte) : Statement (.motorSpeedSet a b c k) := fun cfg => decodeFrame_wellFormed cfg _

theorem setSolidColour (r g b k : Byte) : Statement (.setSolidColour r g b k) := fun cfg => decodeFrame_wellFormed cfg _

theorem encoderRead : Statement .encoderRead := fun cfg => decodeFrame_wellFormed cfg _

theorem unrecognized (o : Byte) : Statement (.unrecognized o) := fun cfg => decodeFrame_wellFormed cfg _

theorem dispatch : Statement .dispatch := fun _ => rfl

theorem busWrite (w : List Byte) : Statement (.busWrite w) := fun _ => rfl

theorem busRead : Statement .busRead := fun _ => rfl

theorem sample (p : Byte) : Statement (.sample p) := fun _ => rfl

theorem diff (a b : Count) : Statement (.diff a b) := fun _ => rfl

theorem reset : Statement .reset := fun _ => rfl

end Sys2Proof.Laws.ReencodedWellFormed
end

