-- ==== Sys2Proof/Laws/Step.lean ====
section
/-! SUPPORT. What a step can do. -/

namespace Sys2Proof.Machine

/-- A step serves the head of the schedule, or the dispatcher's turn, or idles. -/
theorem step_cases (s : State) :
    (∃ e rest, s.schedule = e :: rest ∧ step s = exec e.instr { s with schedule := rest }) ∨
    (s.schedule = [] ∧ s.nd = true ∧ step s = exec .dispatch s) ∨
    (s.schedule = [] ∧ s.nd = false ∧ step s = .next s) := by
  cases h : s.schedule with
  | cons e rest => exact .inl ⟨e, rest, rfl, by simp [step, State.nextEvent, h]⟩
  | nil =>
    cases hn : s.nd
    · exact .inr (.inr ⟨rfl, rfl, by simp [step, State.nextEvent, h, hn]⟩)
    · exact .inr (.inl ⟨rfl, rfl, by simp [step, State.nextEvent, h, hn, Event.instr]⟩)

/-- The first step of a run of several. -/
theorem run_succ {s t : State} (k : Nat) (h : step s = .next t) :
    Host.Core.run Sys2Proof.core (k + 1) s = Host.Core.run Sys2Proof.core k t := by
  have h' : Sys2Proof.core.step s = .next t := h
  simp only [Host.Core.run, h']

/-- A run of `k + j` steps whose first `k` reach `t` goes on from `t`. -/
theorem run_add {s t : State} (k j : Nat) (h : Host.Core.run Sys2Proof.core k s = .next t) :
    Host.Core.run Sys2Proof.core (k + j) s = Host.Core.run Sys2Proof.core j t := by
  induction k generalizing s with
  | zero =>
    injection h with h
    subst h
    rw [Nat.zero_add]
  | succ k ih =>
    cases hs : step s with
    | next u =>
      rw [run_succ k hs] at h
      rw [Nat.add_right_comm, run_succ (k + j) hs]
      exact ih h
    | fault r => exact nomatch r
    | refused r =>
      have hs' : Sys2Proof.core.step s = .refused r := hs
      simp [Host.Core.run, hs'] at h

end Sys2Proof.Machine
end

