-- ==== Sys2Proof/Tests/Slice0.lean ====
section
/-! SUPPORT. Small tests with expected results from 95_test_vectors.md, the well-formedness smoke test, words written out
from the encoding tables, and for each obligation with hypotheses a theorem that concrete data meet them. -/

namespace Sys2Proof.Tests

open Sys2Proof Sys2Proof.Machine Sys2Proof.Safety

/-- The state an operation leaves; the state itself where it does not answer one. -/
def after (i : Instr) (s : State) : State :=
  match exec i s with
  | .next t => t
  | .fault _ => s
  | .refused _ => s

/-- A state with a pending frame and the counters of V-DISPATCH: `pos = (0x0004, 0xFFFE, 0xFFFF)`. -/
def pending (f : Frame) : State := { State.reset with pos := ⟨0x0004, 0xFFFE, 0xFFFF⟩, cmd := f, nd := true }

/-- A state with the snapshot of V-BUSREAD and a cursor. -/
def armed (cur : Nat) : State := { State.reset with snap := #v[0x12, 0x34, 0x56, 0x78, 0x9A, 0xBC], cur := cur }

/-- The chip with the other polarity. -/
def minusChip : Config := { Config.chip with pol := .minus }

/-- The chip without cross-axis coherence of a snapshot. -/
def looseChip : Config := { Config.chip with snapshotCoherent := false }

/-! ## Well-formedness -/

-- 30_encoding.md R83, R87: an opcode of the map is no operand of UNRECOGNIZED.
theorem test_ill_formed_unrecognized :
    Instr.wellFormed Config.chip (.unrecognized 0x20) = false ∧ Instr.wellFormed Config.chip (.unrecognized 0x21) = false ∧
    Instr.wellFormed Config.chip (.unrecognized 0x22) = false ∧ Instr.wellFormed Config.chip (.unrecognized 0xFF) = true := by
  decide

/-! ## Decoding: words written out from the encoding tables -/

-- 30_encoding.md R81: op 39:32 = 0010 0000, p1 = 0x94, p2 = 0x6C, p3 = 0x80, ck = 0x58 (S3).
theorem test_decode_motorSpeedSet :
    decodeTableWord 40 0b0010000010010100011011001000000001011000 = some (.motorSpeedSet 148 108 128 0x58) := by decide

-- 30_encoding.md R81: op = 0010 0001, then FF 80 00 5E (VD5).
theorem test_decode_setSolidColour :
    decodeTableWord 40 0b0010000111111111100000000000000001011110 = some (.setSolidColour 255 128 0 0x5E) := by decide

-- 30_encoding.md R82: op = 0010 0010; cmd[1..4] ignored (VD8).
theorem test_decode_encoderRead :
    decodeTableWord 8 0b00100010 = some .encoderRead ∧ decodeTableWord 40 0x22DEADBEEF = some .encoderRead := by decide

-- 30_encoding.md R83: 0xFF, 0x00 and 0x23 (VD9, VD10, VD11).
theorem test_decode_unrecognized :
    decodeTableWord 8 0xFF = some (.unrecognized 0xFF) ∧ decodeTableWord 8 0x00 = some (.unrecognized 0x00) ∧
    decodeTableWord 40 0x23946C805B = some (.unrecognized 0x23) := by decide

-- opcode_table.json, row DIFF: a = bits 31:16, b = bits 15:0 (S1).
theorem test_decode_diff : decodeTableWord 32 0xFFFA0005 = some (.diff 65530 5) := by decide

-- The event operations and RESET (D2).
theorem test_decode_events :
    decode Config.chip .poll = .dispatch ∧ decode Config.chip (.transaction [0x22]) = .busWrite [0x22] ∧
    decode Config.chip .readRequest = .busRead ∧ decode Config.chip (.port 0xA8) = .sample 0xA8 ∧
    decode Config.chip .startUp = .reset := by decide

-- A width no row of the table has is no operation.
theorem test_decode_other_width : decodeTableWord 16 0x2020 = none := by decide

-- 30_encoding.md R94: the spelling of S3, from raw bytes and from signed speeds.
theorem test_frame_spelling :
    motorSpeedSetBytes Config.chip 148 108 128 = [0x20, 0x94, 0x6C, 0x80, 0x58] ∧
    motorSpeedSetSignedBytes Config.chip 20 (-20) 0 = [0x20, 0x94, 0x6C, 0x80, 0x58] ∧
    setSolidColourBytes Config.chip 255 128 0 = [0x21, 0xFF, 0x80, 0x00, 0x5E] := by decide

/-! ## Fetching a word of the table runs it -/

-- VD1 placed from reset: the flag is cleared and the buffer holds the frame.
theorem test_fetch_motorSpeedSet :
    (match step (State.reset.withFetchWord 40 0x20946C8058) with
      | .next t => t.nd == false && t.events == [.motor 0 20, .motor 1 (-20), .motor 2 0, .lightMotorPattern 148 108 128]
      | .fault _ => false
      | .refused _ => false) = true := by decide

-- ENCODER_READ placed from reset arms the snapshot.
theorem test_fetch_encoderRead :
    (match step (State.reset.withFetchWord 8 0x22) with
      | .next t => t.cur == 0 && t.nd == false
      | .fault _ => false
      | .refused _ => false) = true := by decide

/-! ## One step of each operation -/

-- VS7: three axes in one sample.
theorem test_sample_three_axes :
    (after (.sample 0xA8) State.reset).pos = ⟨1, 1, 65535⟩ ∧ (after (.sample 0xA8) State.reset).enc = ⟨0b10, 0b10, 0b10⟩ := by
  decide

-- VS10: a skipped state counts nothing and updates the reading.
theorem test_sample_skipped_state :
    (after (.sample 0x0C) State.reset).pos = ⟨0, 0, 0⟩ ∧ (after (.sample 0x0C) State.reset).enc = ⟨0b11, 0, 0⟩ := by decide

-- VS2: POL = -1.
theorem test_sample_minus_polarity : (sampleWith minusChip 0x08 State.reset).pos = ⟨65535, 0, 0⟩ := by decide

-- S2, S8: idx 11 is +1; the + direction 00, 10, 11, 01, 00.
theorem test_table : delta Config.chip 0b10 0b11 = 1 ∧ delta Config.chip 0b00 0b10 = 1 ∧ delta Config.chip 0b11 0b01 = 1 ∧
    delta Config.chip 0b01 0b00 = 1 ∧ delta Config.chip 0b00 0b01 = -1 ∧ delta Config.chip 0b01 0b10 = 0 := by decide

-- S1.
theorem test_diff_wrap : (after (.diff 65530 5) State.reset).diffs = [11] := by decide

-- V-DIFF: the two half-range pairs, the ends of the guaranteed range, and just past half range.
theorem test_diff_corners : difference 0 32768 = -32768 ∧ difference 32768 0 = -32768 ∧ difference 1 32768 = 32767 ∧
    difference 40000 7233 = -32767 ∧ difference 0 32769 = -32767 ∧ difference 0 65535 = -1 := by decide

-- VW4: a short write keeps the tail.
theorem test_busWrite_short :
    (after (.busWrite [9, 8]) { State.reset with cmd := #v[1, 2, 3, 4, 5], nd := true }).cmd = #v[9, 8, 3, 4, 5] := by decide

-- VW3: bytes six and seven are discarded, the flag is raised.
theorem test_busWrite_long :
    (after (.busWrite [1, 2, 3, 4, 5, 6, 7]) State.reset).cmd = #v[1, 2, 3, 4, 5] ∧
    (after (.busWrite [1, 2, 3, 4, 5, 6, 7]) State.reset).nd = true := by decide

-- VR3: the last byte.
theorem test_busRead_last : (after .busRead (armed 5)).reads = [0xBC] ∧ (after .busRead (armed 5)).cur = 6 := by decide

-- VR4: the sentinel.
theorem test_busRead_exhausted : (after .busRead (armed 6)).reads = [0] ∧ (after .busRead (armed 6)).cur = 6 := by decide

-- VD3: the extreme speeds.
theorem test_motorSpeedSet_extremes :
    (after (.motorSpeedSet 0x00 0xFF 0x80 0x5F) (pending (frameF5 0x20 0x00 0xFF 0x80 0x5F))).events =
      [.motor 0 (-128), .motor 1 127, .motor 2 0, .lightMotorPattern 0 255 128] := by decide

-- VD2: a bad checksum is dropped, and the flag is cleared.
theorem test_motorSpeedSet_dropped :
    (after (.motorSpeedSet 0x94 0x6C 0x80 0x59) (pending (frameF5 0x20 0x94 0x6C 0x80 0x59))).events = [] ∧
    (after (.motorSpeedSet 0x94 0x6C 0x80 0x59) (pending (frameF5 0x20 0x94 0x6C 0x80 0x59))).nd = false := by decide

-- VD5 and VD6.
theorem test_setSolidColour :
    (after (.setSolidColour 0xFF 0x80 0x00 0x5E) State.reset).events = [.lightSolid ⟨255, 128, 0⟩] ∧
    (after (.setSolidColour 0xFF 0x80 0x00 0x5F) State.reset).events = [] := by decide

-- VD7: C, B, A, big-endian.
theorem test_encoderRead :
    (after .encoderRead (pending (frameOpcodeOnly 0x22))).snap = #v[0xFF, 0xFF, 0xFF, 0xFE, 0x00, 0x04] ∧
    (after .encoderRead (pending (frameOpcodeOnly 0x22))).cur = 0 := by decide

-- R56, by hand: C is copied at 0, then SAMPLE(0x80) takes C to 65535, then B is copied, then SAMPLE(0x88) takes A to 1.
theorem test_encoderRead_interleaved :
    (doEncoderRead looseChip { State.reset with midCopy := ⟨[0x80], [0x88]⟩ }).snap = #v[0, 0, 0, 0, 0, 1] ∧
    (doEncoderRead looseChip { State.reset with midCopy := ⟨[0x80], [0x88]⟩ }).pos = ⟨1, 0, 65535⟩ := by decide

-- VD9: the fail-safe with the free error colour.
theorem test_unrecognized :
    (after (.unrecognized 0xFF) (pending (frameOpcodeOnly 0xFF))).events =
      [.motor 0 0, .motor 1 0, .motor 2 0, .lightSolid Config.freeErrRgb] := rfl

-- VD11: a self-consistent checksum does not help an unrecognized opcode.
theorem test_dispatch_unrecognized :
    (after .dispatch (pending (frameF5 0x23 0x94 0x6C 0x80 0x5B))).events =
      [.motor 0 0, .motor 1 0, .motor 2 0, .lightSolid Config.freeErrRgb] := rfl

-- VD13: one flipped opcode bit runs ENCODER_READ.
theorem test_dispatch_encoderRead :
    (after .dispatch (pending (frameF5 0x22 0x94 0x6C 0x80 0x58))).snap = #v[0xFF, 0xFF, 0xFF, 0xFE, 0x00, 0x04] ∧
    (after .dispatch (pending (frameF5 0x22 0x94 0x6C 0x80 0x58))).events = [] ∧
    (after .dispatch (pending (frameF5 0x22 0x94 0x6C 0x80 0x58))).nd = false := by decide

-- R230, R232.
theorem test_reset :
    (after .reset (armed 3)).cur = 6 ∧ (after .reset (pending (frameOpcodeOnly 0x22))).pos = ⟨0, 0, 0⟩ ∧
    (after .reset (pending (frameOpcodeOnly 0x22))).events = [] := by decide

/-! ## Witnesses: concrete data that meet the hypotheses of each obligation -/

theorem witness_StepServesHeadEvent :
    ({ State.reset with schedule := [.busRead, .sample 0x08] } : State).schedule = .busRead :: [.sample 0x08] := rfl

theorem witness_StepRunsDecodedCommand :
    (pending (frameOpcodeOnly 0x22)).nd = true ∧ (pending (frameOpcodeOnly 0x22)).schedule = [] ∧
    ({ pending (frameOpcodeOnly 0x22) with schedule := [.dispatch, .busRead] } : State).schedule = .dispatch :: [.busRead] := by
  decide

theorem witness_IdleStepChangesNothing : State.reset.schedule = [] ∧ State.reset.nd = false := by decide

theorem witness_SamplesAreIndependentPortFields : Config.chip.Admissible := by decide

-- The first and the last bit of every group agree; the two unused bits differ.
theorem witness_UnusedPortBitsIgnored : ∀ x ∈ [Axis.a, Axis.b, Axis.c], ∀ k < 2,
    (0xA8 : Byte).getLsbD ((Config.chip.shift.get x).val + k) = (0xAB : Byte).getLsbD ((Config.chip.shift.get x).val + k) := by
  decide

theorem witness_ResampleAndBounceCancel : samples Config.chip 0x03 = State.reset.enc := by decide

theorem witness_SkippedStateCountsNothing : (samples Config.chip 0xC0).get .c = State.reset.enc.get .c ^^^ 3 := by decide

-- VS4 and VS3.
theorem witness_CountersWrapSilently :
    axisSign .a * delta Config.chip (State.reset.enc.get .a) ((samples Config.chip 0x08).get .a) = 1 ∧
    axisSign .a * delta Config.chip (State.reset.enc.get .a) ((samples Config.chip 0x04).get .a) = -1 ∧
    State.reset.pos.get .a = 0 ∧ ({ State.reset with pos := ⟨65535, 0, 0⟩ } : State).pos.get .a = 65535 := by decide

-- VS12: one full cycle of axis A.
theorem witness_TrackedMotionCountedExactly :
    State.reset.enc = pinsOf ⟨0, 0, 0⟩ ∧
    Tracks Config.chip ⟨0, 0, 0⟩
      [(⟨1, 0, 0⟩, 0x08), (⟨2, 0, 0⟩, 0x0C), (⟨3, 0, 0⟩, 0x04), (⟨4, 0, 0⟩, 0x00)] := by
  refine ⟨by decide, ?_⟩
  unfold Tracks Tracks Tracks Tracks Tracks
  decide

theorem witness_TrackedMotion_schedule :
    ({ State.reset with schedule := [.sample 0x08, .busRead] } : State).schedule =
      [((⟨1, 0, 0⟩ : PerAxis Int), (0x08 : Byte))].map (fun q => Event.sample q.2) ++ [.busRead] := by decide

theorem witness_NetMotionLaw :
    ({ State.reset with schedule := [.reset, .sample 0x08, .busRead] } : State).schedule =
      (.reset :: [.sample 0x08]) ++ [.busRead] ∧ ResetOnlyFirst (.reset :: [.sample 0x08]) := by decide

-- The half-range premise of NetMotionLaw at the net count of one tick, and at its two ends.
theorem witness_NetMotionLaw_range :
    axisSign .a * (((deltasOf Config.chip .a 0 [0x08]).count 1 : Int) -
      ((deltasOf Config.chip .a 0 [0x08]).count (-1) : Int)) = 1 ∧
    difference 0 32767 = 32767 ∧ difference 32767 0 = -32767 := by decide

-- V-DIFF: both ends of the range.
theorem witness_DiffRecoversMotion :
    (((32768 : Count).toNat : Int) = (((1 : Count).toNat : Int) + 32767) % 65536) ∧
    (((7233 : Count).toNat : Int) = (((40000 : Count).toNat : Int) + (-32767)) % 65536) := by decide

theorem witness_DiffLaws : (5 : Count) - 65530 ≠ 0x8000 ∧ (32768 : Count) - 0 = 0x8000 ∧ (0 : Count) - 32768 = 0x8000 := by decide

-- Clauses of BusWriteFillsAndRaises on either side of the transaction's length.
theorem witness_BusWriteFillsAndRaises :
    (after (.busWrite [9, 8]) State.reset).cmd[1] = 8 ∧ (after (.busWrite [9, 8]) State.reset).cmd[2] = 0 := by decide

theorem witness_PendingCommandOverwritten : [9, 8, (7 : Byte)].length ≤ [1, 2, 3, (4 : Byte)].length ∧
    5 ≤ [1, 2, 3, 4, (5 : Byte)].length := by decide

theorem witness_FullLengthFramesIgnoreStaleBytes :
    FullLengthWrite Config.chip [0x20, 0x94, 0x6C, 0x80, 0x58] ∧ FullLengthWrite Config.chip [0x22] ∧
    FullLengthWrite Config.chip [0xFF] := by decide

theorem witness_SpacedWritesFindFlagClear :
    WritesSpaced State.reset.nd [.busWrite [0x22], .dispatch, .busWrite [0xFF]] ∧
    [Event.busWrite [0x22], .dispatch, .busWrite [0xFF]][2]? = some (.busWrite [0xFF]) := by
  refine ⟨?_, by decide⟩
  simp [WritesSpaced, State.reset]

-- Both clauses, at the cursor values where they meet.
theorem witness_BusReadServesSnapshot : (armed 5).cur < 6 ∧ ¬(armed 6).cur < 6 := by decide

/-- A read-out with a poll that finds nothing, a motor command written and dispatched, and an ENCODER_READ that is written
but not yet dispatched. -/
def readout : List Event :=
  [.busRead, .dispatch, .sample 0x08, .busWrite [0x20, 0x94, 0x6C, 0x80, 0x58], .dispatch, .busRead, .busWrite [0x22],
    .busRead]

theorem witness_ReadoutStream :
    let s : State := { pending (frameOpcodeOnly 0x22) with schedule := .dispatch :: (readout ++ []) }
    s.nd = true ∧ s.cmd[0] = Config.chip.opcEncoderRead ∧
    KeepsSnapshot Config.chip Config.chip.opcEncoderRead false readout := by
  refine ⟨rfl, by decide, ?_⟩
  simp [KeepsSnapshot, readout, Config.chip]

-- Where the premise of the read-out ends: ENCODER_READ dispatched again, and an empty write that repeats it (D11).
theorem test_keepsSnapshot_ends :
    ¬KeepsSnapshot Config.chip 0x20 false [.busWrite [0x22], .dispatch] ∧
    ¬KeepsSnapshot Config.chip 0x22 false [.busWrite [], .dispatch] := by
  simp [KeepsSnapshot, Config.chip]

-- The stream at its last data byte and at the first sentinel.
theorem witness_ReadoutStream_ends :
    streamByte #v[0xFF, 0xFF, 0xFF, 0xFE, 0x00, 0x04] 5 = 0x04 ∧ streamByte #v[0xFF, 0xFF, 0xFF, 0xFE, 0x00, 0x04] 6 = 0 := by
  decide

theorem witness_ReadsZeroBeforeFirstSnapshot :
    NoSnapshotYet State.reset ∧ Instr.busRead ≠ .encoderRead ∧
    ¬(Instr.busRead = .dispatch ∧ State.reset.nd = true ∧ State.reset.cmd[0] = Config.chip.opcEncoderRead) :=
  ⟨⟨rfl, rfl⟩, by decide, by decide⟩

theorem witness_DispatchClearsAndSelects : State.reset.nd = false ∧ (pending (frameOpcodeOnly 0x22)).nd = true := by decide

theorem witness_CommandDispatchedAtMostOnce :
    (∀ e ∈ [Event.busRead, .dispatch], ∀ w, e ≠ .busWrite w) ∧
    ({ pending (frameOpcodeOnly 0x22) with schedule := [.dispatch, .busRead, .dispatch] } : State).schedule =
      .dispatch :: [.busRead, .dispatch] := by
  refine ⟨?_, rfl⟩
  simp

theorem witness_PayloadBytesAreBiasedSpeeds :
    let s := pending (frameF5 0x20 148 108 128 0x58)
    s.nd = true ∧ s.cmd[0] = Config.chip.opcMotorSpeedSet ∧
    s.cmd[0] ^^^ s.cmd[1] ^^^ s.cmd[2] ^^^ s.cmd[3] = s.cmd[4] ∧ speedOf 0 = -128 ∧ speedOf 255 = 127 := by decide

theorem witness_BadChecksumDropsCommand :
    Config.chip.opcMotorSpeedSet ^^^ 0x94 ^^^ 0x6C ^^^ 0x80 ≠ 0x59 ∧
    Config.chip.opcSetSolidColour ^^^ 0xFF ^^^ 0x80 ^^^ 0x00 ≠ 0x5F := by decide

theorem witness_SetSolidColourEmitsLiteral :
    Config.chip.opcSetSolidColour ^^^ 0xFF ^^^ 0x80 ^^^ 0x00 = 0x5E ∧
    ¬Config.chip.opcSetSolidColour ^^^ 0xFF ^^^ 0x80 ^^^ 0x00 = 0x5F := by decide

theorem witness_SnapshotNeverTorn : Config.chip.snapshotCoherent = true ∧ looseChip.snapshotCoherent = false := by decide

theorem witness_UnrecognizedOpcodeStopsMotors :
    let s := pending (frameF5 0xFF 1 2 3 4)
    s.nd = true ∧ s.cmd[0] ≠ Config.chip.opcMotorSpeedSet ∧ s.cmd[0] ≠ Config.chip.opcSetSolidColour ∧
    s.cmd[0] ≠ Config.chip.opcEncoderRead := by decide

theorem witness_ChecksumDetectsEveryBitFlip : checksumOk 0x20 0x94 0x6C 0x80 0x58 = true := by decide

-- The three clauses, at the bits where they meet.
theorem witness_OpcodeBitFlipOutcomes :
    (pending (frameF5 0x21 148 108 128 0x58)).nd = true ∧
    (pending (frameF5 0x21 148 108 128 0x58)).cmd = frameF5 ((0x20 : Byte) ^^^ ((1 : Byte) <<< 0)) 148 108 128 (0x20 ^^^ 148 ^^^ 108 ^^^ 128) ∧
    (pending (frameF5 0x22 148 108 128 0x58)).cmd = frameF5 ((0x20 : Byte) ^^^ ((1 : Byte) <<< 1)) 148 108 128 (0x20 ^^^ 148 ^^^ 108 ^^^ 128) ∧
    (pending (frameF5 0x24 148 108 128 0x58)).cmd = frameF5 ((0x20 : Byte) ^^^ ((1 : Byte) <<< 2)) 148 108 128 (0x20 ^^^ 148 ^^^ 108 ^^^ 128) := by
  decide

-- The order the fail-safe and the commands after it are met in: 43_command_dispatcher.md R181, 60_exceptions.md R211.
theorem witness_FailsafeEventsAndNoLatch :
    (after (.motorSpeedSet 128 0 255 0x5F) (after (.unrecognized 0xFF) State.reset)).events =
      [.motor 0 0, .motor 1 0, .motor 2 0, .lightSolid Config.freeErrRgb,
        .motor 0 0, .motor 1 (-128), .motor 2 127, .lightMotorPattern 128 0 255] := rfl

theorem witness_StaleTailIsValidated :
    (pending (frameF5 0x20 148 108 128 0x58)).cmd = frameF5 0x20 148 108 128 (0x20 ^^^ 148 ^^^ 108 ^^^ 128) := by decide

theorem witness_OverlongUnrecognizedFrameFailsSafe : Config.chip.isOpcode 0xFF = false := by decide

theorem witness_HostCommandsExecute :
    ({ State.reset with
      schedule := [.busWrite (motorSpeedSetSignedBytes Config.chip (-128) 127 0), .dispatch] } : State).schedule =
      .busWrite (motorSpeedSetSignedBytes Config.chip (-128) 127 0) :: .dispatch :: [] ∧
    ({ State.reset with
      schedule := [.busWrite (setSolidColourBytes Config.chip 1 2 3), .dispatch] } : State).schedule =
      .busWrite (setSolidColourBytes Config.chip 1 2 3) :: .dispatch :: [] ∧
    ({ State.reset with schedule := [.busWrite stopBytes, .dispatch] } : State).schedule =
      .busWrite stopBytes :: .dispatch :: [] := by decide

theorem witness_HostCommandsExecute_reads :
    ({ State.reset with
      schedule := [.busWrite (motorSpeedSetBytes Config.chip 0 255 128), .dispatch] } : State).schedule =
      .busWrite (motorSpeedSetBytes Config.chip 0 255 128) :: .dispatch :: [] ∧
    ({ State.reset with schedule := [.busWrite [0x22], .dispatch] } : State).schedule =
      .busWrite (encoderReadBytes Config.chip) :: .dispatch :: [] ∧
    ({ State.reset with
      schedule := [.busWrite [0x22], .dispatch, .busRead, .busRead, .busRead, .busRead, .busRead, .busRead] } :
        State).schedule =
      .busWrite (encoderReadBytes Config.chip) :: .dispatch :: (List.replicate 6 .busRead ++ []) := by decide

theorem witness_StateOwnership :
    (∀ p, Instr.busRead ≠ .sample p) ∧ Instr.busRead ≠ .reset ∧ (∀ w, Instr.busRead ≠ .busWrite w) ∧
    Instr.busRead ≠ .encoderRead ∧ (∀ a b, Instr.busRead ≠ .diff a b) := by simp

theorem witness_CountersLeakOnlyThroughSnapshot :
    Instr.dispatch ≠ .encoderRead ∧
    ¬(Instr.dispatch = .dispatch ∧ (pending (frameOpcodeOnly 0xFF)).nd = true ∧
      (pending (frameOpcodeOnly 0xFF)).cmd[0] = Config.chip.opcEncoderRead) ∧ (∀ p, Instr.dispatch ≠ .sample p) := by
  refine ⟨by decide, by decide, by simp⟩

theorem witness_StateRangesKept : Inv State.reset ∧ step State.reset = .next State.reset :=
  ⟨⟨Nat.le_refl _, by simp [State.reset], by simp [State.reset]⟩, rfl⟩

theorem witness_ResetMeetsStateRanges : Inv (armed 5) :=
  ⟨by decide, by simp [armed, State.reset], by simp [armed, State.reset]⟩

theorem witness_DecodeInvertsEncode :
    Config.chip.Admissible ∧ Instr.wellFormed Config.chip (.unrecognized 0xFF) = true ∧
    Config.chip.isOpcode 0x23 = false := by decide

end Sys2Proof.Tests
end

