-- ==== Sys2Proof/Proofs/CounterWrap.lean ====
section
/-! PROOF. Counter updates wrap modulo 2^16 and leave no trace (10_state.md R21). -/

namespace Sys2Proof.Machine

/-- A counter update is addition modulo 2^16, for every integer step (10_state.md R21). -/
theorem countAdd_toNat (v : Count) (d : Int) : ((countAdd v d).toNat : Int) = ((v.toNat : Int) + d) % 65536 := by
  rw [countAdd, BitVec.toNat_ofInt]
  exact Int.toNat_of_nonneg (Int.emod_nonneg _ (by decide))

/-- Counting up from the top value starts again at 0. -/
theorem countAdd_max_one : countAdd 65535 1 = 0 := by decide

/-- Counting down from 0 goes to the top value. -/
theorem countAdd_zero_neg_one : countAdd 0 (-1) = 65535 := by decide

/-- Settles O12: each axis of the SAMPLE is one `countAdd`, and SAMPLE writes `pos` and `enc` only. -/
theorem countersWrapSilently : Obligations.CountersWrapSilently := by
  refine ⟨countAdd_toNat, fun p s =>
    ⟨sampleWith Config.chip p s, rfl, fun x hpos hdelta => ?up, fun x hpos hdelta => ?down,
      sampleWith_frame Config.chip p s⟩⟩
  case up =>
    rw [(sampleWith_axis Config.chip p s x).1, hpos, hdelta]
    exact countAdd_max_one
  case down =>
    rw [(sampleWith_axis Config.chip p s x).1, hpos, hdelta]
    exact countAdd_zero_neg_one

end Sys2Proof.Machine
end

