-- ==== Sys2Proof/Proofs/ExcessBytes.lean ====
section
/-! PROOF. The bytes of a write transaction beyond the fifth are discarded (30_encoding.md R91). -/

namespace Sys2Proof.Machine

/-- BUS_WRITE fills the command buffer and raises the flag, on every state (42_bus_transport.md R151). -/
theorem exec_busWrite (w : List Byte) (s : State) : exec (.busWrite w) s = .next (s.writeCmd w).raiseNd := rfl

/-- The command buffer is all a write changes, so the buffer it leaves determines the state it leaves. -/
theorem writeCmd_eq_of_cmd_eq {s : State} {w w' : List Byte} (h : (s.writeCmd w).cmd = (s.writeCmd w').cmd) :
    s.writeCmd w = s.writeCmd w' :=
  congrArg (fun c => { s with cmd := c }) h

/-- A write reads only the first five bytes of its transaction. -/
theorem writeCmd_take_five (s : State) (w : List Byte) : s.writeCmd (w.take 5) = s.writeCmd w := by
  refine writeCmd_eq_of_cmd_eq (Vector.ext fun i hi => ?_)
  rw [writeCmd_get, writeCmd_get, List.getD_eq_getElem?_getD, List.getD_eq_getElem?_getD,
    List.getElem?_take_of_lt hi]

/-- Settles O20: the two transactions fill the command buffer alike. -/
theorem excessBytesDiscarded : Obligations.ExcessBytesDiscarded := by
  intro w s
  rw [exec_busWrite, exec_busWrite, writeCmd_take_five]

end Sys2Proof.Machine
end

