-- ==== Sys2Proof/Proofs/SampleDeltas.lean ====
section
/-! PROOF. SAMPLE moves each counter by its table entry and retains the readings (40_quadrature_decoder.md R116). -/

namespace Sys2Proof.Machine

/-- The sample as R116's pseudocode extracts it: shift the port byte, mask with 3. -/
theorem sample2_eq_shift_mask (p : Byte) (sh : Fin 7) :
    sample2 p sh = BitVec.ofNat 2 ((p.toNat >>> sh.val) &&& 3) := by
  apply BitVec.eq_of_toNat_eq
  have mask (n : Nat) : n &&& 3 = n % 4 := Nat.and_two_pow_sub_one_eq_mod n 2
  rw [sample2_toNat, BitVec.toNat_ofNat, mask, Nat.mod_mod]

/-- The counter of an axis after SAMPLE, as a signed sum modulo 2^16 (40_quadrature_decoder.md R119). -/
theorem sampleWith_pos_toNat (cfg : Config) (p : Byte) (s : State) (x : Axis) :
    (((sampleWith cfg p s).pos.get x).toNat : Int) =
      (((s.pos.get x).toNat : Int) + axisSign x * delta cfg (s.enc.get x) ((samples cfg p).get x)) % 65536 := by
  rw [(sampleWith_axis cfg p s x).1, countAdd_toNat]

/-- An axis wired straight adds its table entry. -/
theorem sampleWith_pos_add (cfg : Config) (p : Byte) (s : State) {x : Axis} (h : axisSign x = 1) :
    (((sampleWith cfg p s).pos.get x).toNat : Int) =
      (((s.pos.get x).toNat : Int) + delta cfg (s.enc.get x) ((samples cfg p).get x)) % 65536 := by
  rw [sampleWith_pos_toNat, h, Int.one_mul]

/-- An axis wired in reverse subtracts its table entry (40_quadrature_decoder.md R115). -/
theorem sampleWith_pos_sub (cfg : Config) (p : Byte) (s : State) {x : Axis} (h : axisSign x = -1) :
    (((sampleWith cfg p s).pos.get x).toNat : Int) =
      (((s.pos.get x).toNat : Int) - delta cfg (s.enc.get x) ((samples cfg p).get x)) % 65536 := by
  rw [sampleWith_pos_toNat, h, Int.neg_one_mul, ← Int.sub_eq_add_neg]

/-- Settles O5: A and B are wired straight, C in reverse; the readings are the shifted and masked port byte, and SAMPLE
writes `pos` and `enc` only. -/
theorem sampleAddsTableDeltas : Obligations.SampleAddsTableDeltas := by
  refine ⟨fun _ _ => rfl, fun cfg p s => ?_⟩
  simp only [← sample2_eq_shift_mask]
  exact ⟨sampleWith_pos_add cfg p s (x := .a) rfl, sampleWith_pos_add cfg p s (x := .b) rfl,
    sampleWith_pos_sub cfg p s (x := .c) rfl, rfl, sampleWith_frame cfg p s⟩

end Sys2Proof.Machine
end

