-- ==== Sys2Proof/Proofs/DiffMotion.lean ====
section
/-! PROOF. DIFF recovers the true motion between two readings (41_position_counters.md R133). -/

namespace Sys2Proof.Machine

/-- DIFF is the naive difference balanced modulo 2^16: each branch of the procedure adds a multiple of 65536 that brings
it into -32768..32767 (41_position_counters.md R131). -/
theorem difference_eq_bmod (a b : Count) : difference a b = ((b.toNat : Int) - a.toNat).bmod 65536 := by
  have ha := a.isLt
  have hb := b.isLt
  rw [difference]
  split
  case isTrue => rw [← Int.sub_bmod_right, Int.bmod_eq_of_le] <;> omega
  case isFalse =>
    split
    case isTrue => rw [← Int.add_bmod_right, Int.bmod_eq_of_le] <;> omega
    case isFalse => rw [Int.bmod_eq_of_le] <;> omega

/-- DIFF between a reading and the counter `k` ticks later, for any `k`, is `k` balanced modulo 2^16
(41_position_counters.md R133, R134). -/
theorem difference_eq_bmod_of_motion {a b : Count} {k : Int}
    (h : (b.toNat : Int) = ((a.toNat : Int) + k) % 65536) : difference a b = k.bmod 65536 :=
  calc difference a b
    _ = ((b.toNat : Int) - a.toNat).bmod 65536 := difference_eq_bmod a b
    _ = (((a.toNat : Int) + k) % (65536 : Nat) - a.toNat).bmod 65536 := by rw [h, Nat.cast_ofNat]
    _ = k.bmod 65536 := by rw [Int.emod_sub_bmod, add_sub_cancel_left]

/-- Settles O16: within the guaranteed range the balanced representative of `k` is `k` itself. -/
theorem diffRecoversMotion : Obligations.DiffRecoversMotion := by
  intro a b k hlo hhi h
  rw [difference_eq_bmod_of_motion h]
  exact Int.bmod_eq_of_le_mul_two (by omega) (by omega)

end Sys2Proof.Machine
end

