-- ==== Sys2Proof/Proofs/BusTransport.lean ====
section
/-! PROOF. What one write and one read transaction do (42_bus_transport.md R151, R156). -/

namespace Sys2Proof.Machine

/-- A byte the transaction supplies replaces the old one (42_bus_transport.md R151). -/
theorem writeCmd_get_of_lt (s : State) (w : List Byte) {i : Nat} (hi : i < 5) (hw : i < w.length) :
    (s.writeCmd w).cmd[i] = w[i] := by
  rw [writeCmd_get, List.getD_eq_getElem _ _ hw]

/-- A byte the transaction does not supply keeps its old value (42_bus_transport.md R151, R153). -/
theorem writeCmd_get_of_le (s : State) (w : List Byte) {i : Nat} (hi : i < 5) (hw : w.length ≤ i) :
    (s.writeCmd w).cmd[i] = s.cmd[i] := by
  rw [writeCmd_get, List.getD_eq_default _ _ hw]

/-- Settles O19: each byte of the buffer is either supplied or kept, and a write changes `cmd` and `nd` only. -/
theorem busWriteFillsAndRaises : Obligations.BusWriteFillsAndRaises := by
  refine fun w s => ⟨(s.writeCmd w).raiseNd, exec_busWrite w s, fun i hi => ?bytes, rfl⟩
  case bytes =>
    split
    case isTrue hw => exact writeCmd_get_of_lt s w hi hw
    case isFalse hw => exact writeCmd_get_of_le s w hi (Nat.le_of_not_lt hw)

/-- A read inside the snapshot returns the byte at the cursor and advances it (42_bus_transport.md R156). -/
theorem exec_busRead_of_lt (s : State) (h : s.cur < 6) :
    exec .busRead s = .next (s.advanceCur.returnByte s.snap[s.cur]) :=
  congrArg Host.Outcome.next (dif_pos h)

/-- A read past the snapshot returns the sentinel and leaves the cursor (42_bus_transport.md R156, R158). -/
theorem exec_busRead_of_not_lt (s : State) (h : ¬ s.cur < 6) : exec .busRead s = .next (s.returnByte 0) :=
  congrArg Host.Outcome.next (dif_neg h)

/-- Settles O25: the cursor decides between the next snapshot byte and the sentinel. -/
theorem busReadServesSnapshot : Obligations.BusReadServesSnapshot :=
  fun s => ⟨exec_busRead_of_lt s, exec_busRead_of_not_lt s⟩

end Sys2Proof.Machine
end

