-- ==== Sys2Proof/Proofs/CommandDispatcher.lean ====
section
/-! PROOF. What DISPATCH and the four bus commands do (43_command_dispatcher.md sections 1 to 5). -/

namespace Sys2Proof.Machine

/-! ## DISPATCH -/

/-- DISPATCH runs at the configuration of the chip. -/
theorem exec_dispatch (s : State) : exec .dispatch s = .next (dispatchWith Config.chip s) := rfl

/-- A poll that finds the flag clear changes nothing (43_command_dispatcher.md R170). -/
theorem dispatchWith_of_nd_false (cfg : Config) {s : State} (h : s.nd = false) : dispatchWith cfg s = s := by
  rw [dispatchWith, h, if_neg Bool.false_ne_true]

/-- With the flag raised the decoded command acts on the cleared flag (43_command_dispatcher.md R170). -/
theorem dispatchWith_of_nd_true (cfg : Config) {s : State} (h : s.nd = true) :
    dispatchWith cfg s = actCommand cfg s.clearNd (decodeFrame cfg s.cmd) := by
  rw [dispatchWith, if_pos h]

/-- With the flag raised DISPATCH is the operation the buffer decodes to. -/
theorem exec_dispatch_of_nd_true {s : State} (h : s.nd = true) :
    exec .dispatch s = exec (decodeFrame Config.chip s.cmd) s := by
  rw [exec_dispatch, dispatchWith_of_nd_true _ h, exec_decodeFrame]

/-- The action of a frame is the four-way choice on its first byte (43_command_dispatcher.md R171). -/
theorem actCommand_decodeFrame (cfg : Config) (s : State) (f : Frame) :
    actCommand cfg s (decodeFrame cfg f) =
      if f[0] = cfg.opcMotorSpeedSet then doMotorSpeedSet cfg f[1] f[2] f[3] f[4] s
      else if f[0] = cfg.opcSetSolidColour then doSetSolidColour cfg f[1] f[2] f[3] f[4] s
      else if f[0] = cfg.opcEncoderRead then doEncoderRead cfg s
      else failsafe cfg s := by
  simp only [decodeFrame, apply_ite (actCommand cfg s)]
  rfl

/-- DISPATCH leaves the flag clear and the buffer as it was, whatever the command. -/
theorem dispatchWith_nd_cmd {cfg : Config} (hcfg : cfg.snapshotCoherent = true) {s : State} (h : s.nd = true) :
    (dispatchWith cfg s).nd = false ∧ (dispatchWith cfg s).cmd = s.cmd := by
  rw [dispatchWith_of_nd_true cfg h]
  obtain ⟨-, -, hcmd, hnd, -⟩ := actCommand_frame cfg s.clearNd s.cmd hcfg
  exact ⟨hnd, hcmd⟩

/-- Settles O28: the flag decides whether the step does anything, and the first byte which command acts. -/
theorem dispatchClearsAndSelects : Obligations.DispatchClearsAndSelects := by
  refine ⟨fun s h => ?clear, fun s h => ⟨dispatchWith Config.chip s, exec_dispatch s, dispatchWith_nd_cmd rfl h⟩,
    exec_dispatch, fun cfg s h => ?choice⟩
  case clear => rw [exec_dispatch, dispatchWith_of_nd_false _ h]
  case choice => exact (dispatchWith_of_nd_true cfg h).trans (actCommand_decodeFrame cfg s.clearNd s.cmd)

/-! ## UNRECOGNIZED -/

/-- UNRECOGNIZED runs the fail-safe on the cleared flag (43_command_dispatcher.md R180). -/
theorem exec_unrecognized (o : Byte) (s : State) :
    exec (.unrecognized o) s = .next (s.clearNd.emit (failsafeEvents Config.chip)) := rfl

/-- A frame whose first byte is none of the three opcodes decodes to UNRECOGNIZED (30_encoding.md R87). -/
theorem decodeFrame_of_unrecognized {cfg : Config} {f : Frame} (hm : f[0] ≠ cfg.opcMotorSpeedSet)
    (hc : f[0] ≠ cfg.opcSetSolidColour) (he : f[0] ≠ cfg.opcEncoderRead) :
    decodeFrame cfg f = .unrecognized f[0] := by
  rw [decodeFrame, if_neg hm, if_neg hc, if_neg he]

/-- Settles O37: the fail-safe's events are the four of the statement, and DISPATCH decodes such a byte to UNRECOGNIZED. -/
theorem unrecognizedOpcodeStopsMotors : Obligations.UnrecognizedOpcodeStopsMotors := by
  refine ⟨fun o s => ⟨_, failsafeEvents Config.chip, exec_unrecognized o s, List.Perm.refl _, rfl⟩,
    fun s h hm hc he => ?_⟩
  rw [exec_dispatch_of_nd_true h, decodeFrame_of_unrecognized hm hc he]

/-! ## MOTOR_SPEED_SET and SET_SOLID_COLOUR -/

/-- Emitting no event changes nothing. -/
@[simp] theorem State.emit_nil (s : State) : s.emit [] = s := by
  rw [State.emit, List.append_nil]

/-- A motor command with a bad checksum does nothing (43_command_dispatcher.md R176). -/
theorem doMotorSpeedSet_of_bad_checksum {cfg : Config} {a b c k : Byte}
    (h : cfg.opcMotorSpeedSet ^^^ a ^^^ b ^^^ c ≠ k) (s : State) : doMotorSpeedSet cfg a b c k s = s :=
  if_neg (mt (checksumOk_iff _ _ _ _ _).mp h)

/-- A colour command emits its colour if the checksum is good, and no event at all otherwise
(43_command_dispatcher.md R176, R177). -/
theorem doSetSolidColour_eq_emit (cfg : Config) (r g b k : Byte) (s : State) :
    doSetSolidColour cfg r g b k s =
      s.emit (if cfg.opcSetSolidColour ^^^ r ^^^ g ^^^ b = k then [.lightSolid ⟨r, g, b⟩] else []) := by
  rw [doSetSolidColour]
  simp only [checksumOk_iff, apply_ite s.emit, State.emit_nil]

/-- MOTOR_SPEED_SET acts on the cleared flag. -/
theorem exec_motorSpeedSet (a b c k : Byte) (s : State) :
    exec (.motorSpeedSet a b c k) s = .next (doMotorSpeedSet Config.chip a b c k s.clearNd) := rfl

/-- SET_SOLID_COLOUR acts on the cleared flag. -/
theorem exec_setSolidColour (r g b k : Byte) (s : State) :
    exec (.setSolidColour r g b k) s = .next (doSetSolidColour Config.chip r g b k s.clearNd) := rfl

/-- Settles O33: neither command acts, so only the clearing of the flag is left. -/
theorem badChecksumDropsCommand : Obligations.BadChecksumDropsCommand := by
  refine ⟨fun a b c k s h => ?motor, fun r g b k s h => ?colour⟩
  case motor =>
    rw [exec_motorSpeedSet, doMotorSpeedSet_of_bad_checksum h]
    rfl
  case colour =>
    rw [exec_setSolidColour, doSetSolidColour_eq_emit, if_neg h, State.emit_nil]
    rfl

/-- Settles O34: the colour command is one `emit` on the cleared flag, of its colour or of nothing. -/
theorem setSolidColourEmitsLiteral : Obligations.SetSolidColourEmitsLiteral := by
  intro r g b k s
  rw [exec_setSolidColour, doSetSolidColour_eq_emit]
  rfl

/-! ## ENCODER_READ -/

/-- The high byte of a counter is the counter shifted right by eight (43_command_dispatcher.md R179). -/
theorem hiByte_toNat (v : Count) : (hiByte v).toNat = v.toNat >>> 8 := by
  have hlt : v.toNat >>> 8 < 2 ^ 8 := by
    have := v.isLt
    omega
  rw [hiByte, BitVec.extractLsb'_toNat, Nat.mod_eq_of_lt hlt]

/-- The low byte of a counter is the counter masked with 0xFF (43_command_dispatcher.md R179). -/
theorem loByte_toNat (v : Count) : (loByte v).toNat = v.toNat &&& 0xFF := by
  rw [loByte, BitVec.extractLsb'_toNat, Nat.shiftRight_zero]
  exact (Nat.and_two_pow_sub_one_eq_mod _ 8).symm

/-- ENCODER_READ on the chip latches the three counters of one point of the run (43_command_dispatcher.md R179). -/
theorem exec_encoderRead (s : State) : exec .encoderRead s = .next (s.clearNd.latch s.pos.c s.pos.b s.pos.a) :=
  congrArg Host.Outcome.next (doEncoderRead_coherent Config.chip s.clearNd rfl)

/-- Settles O35: the step is one latch, whose bytes are the high and the low byte of C, B and A in that order. -/
theorem encoderReadLatchesCounters : Obligations.EncoderReadLatchesCounters := fun s =>
  ⟨_, exec_encoderRead s, hiByte_toNat _, loByte_toNat _, hiByte_toNat _, loByte_toNat _, hiByte_toNat _,
    loByte_toNat _, rfl⟩

end Sys2Proof.Machine
end

