-- ==== Sys2Proof/Proofs/Transitions.lean ====
section
/-! PROOF. Everything one operation can do, said once, and what follows for each register and each observation
(20_memory.md section 10). -/

namespace Sys2Proof.Machine

/-! ## The operations as a total function -/

/-- The state an operation answers. The two other outcomes, which no operation has (60_exceptions.md R216), are given the
state itself; `exec_eq_effect` is the tie to `exec`. -/
def effect (i : Instr) (s : State) : State :=
  match exec i s with
  | .next t => t
  | .fault _ => s
  | .refused _ => s

/-- Every operation completes (60_exceptions.md R216). -/
theorem exec_eq_effect (i : Instr) (s : State) : exec i s = .next (effect i s) := by
  cases i <;> rfl

theorem effect_eq_of_exec {i : Instr} {s t : State} (h : exec i s = .next t) : effect i s = t := by
  rw [effect, h]

/-- Every step completes as well: it runs one operation or idles. -/
theorem step_completes (s : State) : ∃ t, step s = .next t := by
  obtain ⟨e, rest, -, h⟩ | ⟨-, -, h⟩ | ⟨-, -, h⟩ := step_cases s
  · exact ⟨_, h.trans (exec_eq_effect _ _)⟩
  · exact ⟨_, h.trans (exec_eq_effect _ _)⟩
  · exact ⟨s, h⟩

/-- Settles O4: no arm of `exec` answers a fault or a refusal. -/
theorem everyOperationCompletes : Obligations.EveryOperationCompletes :=
  ⟨fun i s => ⟨effect i s, exec_eq_effect i s⟩, step_completes⟩

/-! ## The output events of a bus command -/

/-- The output events of a bus command; none on a bad checksum and none for ENCODER_READ (43_command_dispatcher.md R175,
R176, R177, R179, R181). -/
def commandEvents (cfg : Config) : Instr → List OutEvent
  | .motorSpeedSet a b c k =>
    if checksumOk cfg.opcMotorSpeedSet a b c k then
      [.motor 0 (speedOf a), .motor 1 (speedOf b), .motor 2 (speedOf c), .lightMotorPattern a b c]
    else []
  | .setSolidColour r g b k => if checksumOk cfg.opcSetSolidColour r g b k then [.lightSolid ⟨r, g, b⟩] else []
  | .unrecognized _ => failsafeEvents cfg
  | _ => []

theorem doMotorSpeedSet_eq_emit (cfg : Config) (a b c k : Byte) (s : State) :
    doMotorSpeedSet cfg a b c k s = s.emit (commandEvents cfg (.motorSpeedSet a b c k)) := by
  simp only [doMotorSpeedSet, commandEvents, apply_ite s.emit, State.emit_nil]

theorem doSetSolidColour_eq_emit_commandEvents (cfg : Config) (r g b k : Byte) (s : State) :
    doSetSolidColour cfg r g b k s = s.emit (commandEvents cfg (.setSolidColour r g b k)) := by
  simp only [doSetSolidColour, commandEvents, apply_ite s.emit, State.emit_nil]

/-- The action of a frame: ENCODER_READ, or the emission of the command's events and nothing else. -/
theorem actCommand_decodeFrame_cases (cfg : Config) (hcfg : cfg.Admissible) (s : State) (f : Frame) :
    (f[0] = cfg.opcEncoderRead ∧ actCommand cfg s (decodeFrame cfg f) = doEncoderRead cfg s) ∨
    (f[0] ≠ cfg.opcEncoderRead ∧
      actCommand cfg s (decodeFrame cfg f) = s.emit (commandEvents cfg (decodeFrame cfg f))) := by
  obtain ⟨-, -, -, -, hme, hce, -⟩ := hcfg
  obtain ⟨h, e⟩ | ⟨-, h, e⟩ | ⟨-, -, h, e⟩ | ⟨-, -, h, e⟩ := decodeFrame_cases cfg f
  · exact .inr ⟨h ▸ hme, by rw [e]; exact doMotorSpeedSet_eq_emit ..⟩
  · exact .inr ⟨h ▸ hce, by rw [e]; exact doSetSolidColour_eq_emit_commandEvents ..⟩
  · exact .inl ⟨h, by rw [e]; rfl⟩
  · exact .inr ⟨h, by rw [e]; rfl⟩

/-! ## Every transition -/

/-- The transitions of the operations on the chip, by operation and by the branch it takes. -/
inductive Transition (s : State) : Instr → State → Prop
  | motorSpeedSet (a b c k : Byte) : Transition s (.motorSpeedSet a b c k)
      (s.clearNd.emit (commandEvents Config.chip (.motorSpeedSet a b c k)))
  | setSolidColour (r g b k : Byte) : Transition s (.setSolidColour r g b k)
      (s.clearNd.emit (commandEvents Config.chip (.setSolidColour r g b k)))
  | encoderRead : Transition s .encoderRead (s.clearNd.latch s.pos.c s.pos.b s.pos.a)
  | unrecognized (o : Byte) : Transition s (.unrecognized o)
      (s.clearNd.emit (commandEvents Config.chip (.unrecognized o)))
  | dispatchIdle (hnd : s.nd = false) : Transition s .dispatch s
  | dispatchEncoderRead (hnd : s.nd = true) (hop : s.cmd[0] = Config.chip.opcEncoderRead) :
      Transition s .dispatch (s.clearNd.latch s.pos.c s.pos.b s.pos.a)
  | dispatchEmit (hnd : s.nd = true) (hop : s.cmd[0] ≠ Config.chip.opcEncoderRead) :
      Transition s .dispatch (s.clearNd.emit (commandEvents Config.chip (decodeFrame Config.chip s.cmd)))
  | busWrite (w : List Byte) : Transition s (.busWrite w) (s.writeCmd w).raiseNd
  | busReadByte (hcur : s.cur < 6) : Transition s .busRead (s.advanceCur.returnByte s.snap[s.cur])
  | busReadSentinel (hcur : ¬ s.cur < 6) : Transition s .busRead (s.returnByte 0)
  | sample (p : Byte) : Transition s (.sample p) (sampleWith Config.chip p s)
  | diff (a b : Count) : Transition s (.diff a b) (s.returnDiff (difference a b))
  | reset : Transition s .reset { s with
      pos := State.reset.pos, enc := State.reset.enc, cmd := State.reset.cmd, nd := State.reset.nd,
      snap := State.reset.snap, cur := State.reset.cur }

theorem chip_admissible : Config.chip.Admissible := by decide

theorem exec_dispatch_of_encoderRead {s : State} (hnd : s.nd = true) (hop : s.cmd[0] = Config.chip.opcEncoderRead) :
    exec .dispatch s = .next (s.clearNd.latch s.pos.c s.pos.b s.pos.a) := by
  obtain ⟨-, h⟩ | ⟨h, -⟩ := actCommand_decodeFrame_cases Config.chip chip_admissible s.clearNd s.cmd
  · rw [exec_dispatch, dispatchWith_of_nd_true _ hnd, h, doEncoderRead_coherent _ _ rfl]
    rfl
  · exact absurd hop h

theorem exec_dispatch_of_emit {s : State} (hnd : s.nd = true) (hop : s.cmd[0] ≠ Config.chip.opcEncoderRead) :
    exec .dispatch s = .next (s.clearNd.emit (commandEvents Config.chip (decodeFrame Config.chip s.cmd))) := by
  obtain ⟨h, -⟩ | ⟨-, h⟩ := actCommand_decodeFrame_cases Config.chip chip_admissible s.clearNd s.cmd
  · exact absurd h hop
  · rw [exec_dispatch, dispatchWith_of_nd_true _ hnd, h]

theorem exec_dispatch_of_nd_false {s : State} (h : s.nd = false) : exec .dispatch s = .next s := by
  rw [exec_dispatch, dispatchWith_of_nd_false _ h]

/-- What `Transition` lists is what `exec` does. -/
theorem Transition.exec_eq {s t : State} {i : Instr} (h : Transition s i t) : exec i s = .next t := by
  cases h with
  | motorSpeedSet a b c k => rw [exec_motorSpeedSet, doMotorSpeedSet_eq_emit]
  | setSolidColour r g b k => rw [exec_setSolidColour, doSetSolidColour_eq_emit_commandEvents]
  | encoderRead => exact exec_encoderRead s
  | unrecognized o => exact exec_unrecognized o s
  | dispatchIdle hnd => exact exec_dispatch_of_nd_false hnd
  | dispatchEncoderRead hnd hop => exact exec_dispatch_of_encoderRead hnd hop
  | dispatchEmit hnd hop => exact exec_dispatch_of_emit hnd hop
  | busWrite w => exact exec_busWrite w s
  | busReadByte hcur => exact exec_busRead_of_lt s hcur
  | busReadSentinel hcur => exact exec_busRead_of_not_lt s hcur
  | sample p => rfl
  | diff a b => rfl
  | reset => rfl

/-- Every operation has one of the listed transitions on every state. -/
theorem exists_transition (i : Instr) (s : State) : ∃ t, Transition s i t := by
  cases i with
  | motorSpeedSet a b c k => exact ⟨_, .motorSpeedSet a b c k⟩
  | setSolidColour r g b k => exact ⟨_, .setSolidColour r g b k⟩
  | encoderRead => exact ⟨_, .encoderRead⟩
  | unrecognized o => exact ⟨_, .unrecognized o⟩
  | dispatch =>
    cases hnd : s.nd with
    | false => exact ⟨_, .dispatchIdle hnd⟩
    | true =>
      by_cases hop : s.cmd[0] = Config.chip.opcEncoderRead
      · exact ⟨_, .dispatchEncoderRead hnd hop⟩
      · exact ⟨_, .dispatchEmit hnd hop⟩
  | busWrite w => exact ⟨_, .busWrite w⟩
  | busRead =>
    by_cases hcur : s.cur < 6
    · exact ⟨_, .busReadByte hcur⟩
    · exact ⟨_, .busReadSentinel hcur⟩
  | sample p => exact ⟨_, .sample p⟩
  | diff a b => exact ⟨_, .diff a b⟩
  | reset => exact ⟨_, .reset⟩

theorem transition_effect (i : Instr) (s : State) : Transition s i (effect i s) := by
  obtain ⟨t, h⟩ := exists_transition i s
  rwa [effect_eq_of_exec h.exec_eq]

/-! ## What a transition leaves unchanged -/

namespace Transition

/-- The operation runs ENCODER_READ: itself, or as the command the dispatcher finds (43_command_dispatcher.md R179). -/
def RunsEncoderRead (s : State) (i : Instr) : Prop :=
  i = .encoderRead ∨ (i = .dispatch ∧ s.nd = true ∧ s.cmd[0] = Config.chip.opcEncoderRead)

variable {s t : State} {i : Instr} (h : Transition s i t)
include h

/-- SAMPLE and RESET own the counters and the readings (10_state.md R22, R28). -/
theorem pos_enc (hs : ∀ p, i ≠ .sample p) (hr : i ≠ .reset) : t.pos = s.pos ∧ t.enc = s.enc := by
  cases h <;> simp at hs hr ⊢

/-- BUS_WRITE and RESET own the command buffer (10_state.md R29). -/
theorem cmd (hw : ∀ w, i ≠ .busWrite w) (hr : i ≠ .reset) : t.cmd = s.cmd := by
  cases h <;> simp [sampleWith] at hw hr ⊢

/-- Only BUS_WRITE raises the flag (10_state.md R25). -/
theorem nd_of_nd (hw : ∀ w, i ≠ .busWrite w) (hnd : t.nd = true) : s.nd = true := by
  cases h <;> simp_all [sampleWith, State.reset]

theorem nd_eq (hi : i = .busRead ∨ (∃ p, i = .sample p) ∨ ∃ a b, i = .diff a b) : t.nd = s.nd := by
  cases h <;> simp [sampleWith] at hi ⊢

theorem nd_dispatch (hi : i = .dispatch) : t.nd = false := by
  cases h <;> simp_all

/-- ENCODER_READ and RESET own the snapshot (10_state.md R30). -/
theorem snap (he : ¬RunsEncoderRead s i) (hr : i ≠ .reset) : t.snap = s.snap := by
  cases h <;> simp_all [RunsEncoderRead, sampleWith]

/-- The cursor moves with the snapshot and in a read (10_state.md R31). -/
theorem cur (he : ¬RunsEncoderRead s i) (hr : i ≠ .reset) (hb : i ≠ .busRead) : t.cur = s.cur := by
  cases h <;> simp_all [RunsEncoderRead, sampleWith]

theorem events (hi : (∃ w, i = .busWrite w) ∨ i = .busRead ∨ (∃ p, i = .sample p) ∨ (∃ a b, i = .diff a b) ∨
    i = .reset ∨ i = .encoderRead) : t.events = s.events := by
  cases h <;> simp [sampleWith] at hi ⊢

theorem events_grow : s.events <+: t.events := by
  cases h <;> simp [sampleWith]

/-- Only BUS_READ returns a byte (00_scope.md R12(b)). -/
theorem reads (hb : i ≠ .busRead) : t.reads = s.reads := by
  cases h <;> simp [sampleWith] at hb ⊢

theorem reads_grow : s.reads <+: t.reads := by
  cases h <;> simp [sampleWith]

/-- Only DIFF returns a difference (41_position_counters.md R130). -/
theorem diffs (hd : ∀ a b, i ≠ .diff a b) : t.diffs = s.diffs := by
  cases h <;> simp [sampleWith] at hd ⊢

theorem diffs_grow : s.diffs <+: t.diffs := by
  cases h <;> simp [sampleWith]

/-- No operation touches the inputs still to come. -/
theorem schedule_midCopy : t.schedule = s.schedule ∧ t.midCopy = s.midCopy := by
  cases h <;> exact ⟨rfl, rfl⟩

end Transition

/-- Settles O44: each clause is the frame lemma of the register or observation it names. -/
theorem stateOwnership : Obligations.StateOwnership := by
  intro i s
  have h := transition_effect i s
  obtain ⟨hschedule, hmidCopy⟩ := h.schedule_midCopy
  refine ⟨effect i s, exec_eq_effect i s, h.pos_enc, h.cmd, h.nd_of_nd, h.nd_eq, fun he hd hr => ?snapshot, h.events,
    h.reads, h.diffs, h.events_grow, h.reads_grow, h.diffs_grow, hschedule, hmidCopy⟩
  case snapshot =>
    have hrun : ¬Transition.RunsEncoderRead s i := not_or_intro he hd
    exact ⟨h.snap hrun hr, h.cur hrun hr⟩

end Sys2Proof.Machine
end

