-- ==== Sys2Proof/Proofs/Runs.lean ====
section
/-! PROOF. One step, and the run of a list of scheduled events (20_memory.md sections 3 and 6). -/

namespace Sys2Proof.Machine

/-! ## One step -/

/-- Settles O1: the head of the schedule is the next event. -/
theorem stepServesHeadEvent : Obligations.StepServesHeadEvent := by
  intro s e rest h
  obtain ⟨e', rest', h', hstep⟩ | ⟨h', -⟩ | ⟨h', -⟩ := step_cases s
  · obtain ⟨rfl, rfl⟩ := List.cons.inj (h.symm.trans h')
    exact hstep
  · exact absurd (h.symm.trans h') (List.cons_ne_nil e rest)
  · exact absurd (h.symm.trans h') (List.cons_ne_nil e rest)

/-- With an empty schedule and the flag raised the dispatcher is next (70_reset_and_hazards.md R247). -/
theorem step_of_pending {s : State} (h : s.schedule = []) (hnd : s.nd = true) : step s = exec .dispatch s := by
  simp [step, State.nextEvent, h, hnd, Event.instr]

/-- With an empty schedule and the flag clear the block idles (92_eei_decisions.md D34). -/
theorem step_of_idle {s : State} (h : s.schedule = []) (hnd : s.nd = false) : step s = .next s := by
  simp [step, State.nextEvent, h, hnd]

/-- Settles O3: there is nothing to serve and nothing to dispatch. -/
theorem idleStepChangesNothing : Obligations.IdleStepChangesNothing := fun _ => step_of_idle

/-- Settles O2: the dispatcher's turn, scheduled or not, is DISPATCH, which runs the decoded command when the flag is
raised; a placed frame raises the flag and schedules that turn. -/
theorem stepRunsDecodedCommand : Obligations.StepRunsDecodedCommand := by
  refine ⟨fun s rest hnd h => ?scheduled, fun s hnd h => ?alone, fun s f => ?placed⟩
  case scheduled => exact (stepServesHeadEvent s .dispatch rest h).trans (exec_dispatch_of_nd_true hnd)
  case alone => exact (step_of_pending h hnd).trans (exec_dispatch_of_nd_true hnd)
  case placed =>
    exact (stepServesHeadEvent (s.place (.frame f)) .dispatch s.schedule rfl).trans (exec_dispatch_of_nd_true rfl)

/-! ## Runs of scheduled events -/

/-- No operation reads the schedule. -/
theorem Transition.withSchedule {s t : State} {i : Instr} (h : Transition s i t) (rest : List Event) :
    Transition { s with schedule := rest } i { t with schedule := rest } := by
  cases h with
  | motorSpeedSet a b c k => exact .motorSpeedSet a b c k
  | setSolidColour r g b k => exact .setSolidColour r g b k
  | encoderRead => exact .encoderRead
  | unrecognized o => exact .unrecognized o
  | dispatchIdle hnd => exact .dispatchIdle hnd
  | dispatchEncoderRead hnd hop => exact .dispatchEncoderRead hnd hop
  | dispatchEmit hnd hop => exact .dispatchEmit hnd hop
  | busWrite w => exact .busWrite w
  | busReadByte hcur => exact .busReadByte (s := { s with schedule := rest }) hcur
  | busReadSentinel hcur => exact .busReadSentinel hcur
  | sample p => exact .sample p
  | diff a b => exact .diff a b
  | reset => exact .reset

/-- The state after a list of events, served in order; what else is scheduled stays scheduled (`run_eq_serve`). -/
def serve (es : List Event) (s : State) : State := es.foldl (fun t e => effect e.instr t) s

@[simp] theorem serve_nil (s : State) : serve [] s = s := rfl

@[simp] theorem serve_cons (e : Event) (es : List Event) (s : State) :
    serve (e :: es) s = serve es (effect e.instr s) := rfl

/-- A step serves the head event and keeps the others for later. -/
theorem step_of_cons {s : State} {e : Event} {rest : List Event} (h : s.schedule = e :: rest) :
    step s = .next { effect e.instr s with schedule := rest } :=
  (stepServesHeadEvent s e rest h).trans ((transition_effect e.instr s).withSchedule rest).exec_eq

theorem effect_withSchedule (i : Instr) (s : State) (rest : List Event) :
    effect i { s with schedule := rest } = { effect i s with schedule := rest } :=
  effect_eq_of_exec ((transition_effect i s).withSchedule rest).exec_eq

theorem serve_withSchedule (es : List Event) (s : State) (rest : List Event) :
    serve es { s with schedule := rest } = { serve es s with schedule := rest } := by
  induction es generalizing s with
  | nil => rfl
  | cons e es ih => rw [serve_cons, serve_cons, effect_withSchedule, ih]

/-- As many steps as there are events at the head of the schedule serve exactly these. -/
theorem run_eq_serve {s : State} {es rest : List Event} (h : s.schedule = es ++ rest) :
    Host.Core.run Sys2Proof.core es.length s = .next { serve es s with schedule := rest } := by
  induction es generalizing s with
  | nil =>
    obtain rfl : s.schedule = rest := h
    rfl
  | cons e es ih =>
    rw [List.length_cons, run_succ _ (step_of_cons h), ih rfl, serve_withSchedule]
    rfl

/-- With nothing scheduled one step leaves the flag clear: the dispatcher's turn, or idling. -/
theorem run_one_of_exhausted {s : State} (h : s.schedule = []) :
    ∃ t, Host.Core.run Sys2Proof.core 1 s = .next t ∧ t.schedule = [] ∧ t.nd = false := by
  cases hnd : s.nd with
  | false => exact ⟨s, run_succ 0 (step_of_idle h hnd), h, hnd⟩
  | true =>
    have ht := transition_effect .dispatch s
    exact ⟨_, run_succ 0 ((step_of_pending h hnd).trans ht.exec_eq), ht.schedule_midCopy.1.trans h, ht.nd_dispatch rfl⟩

/-- Settles O30: the scheduled events are served, and one more step finds the schedule exhausted. -/
theorem flagEventuallyDispatched : Obligations.FlagEventuallyDispatched := by
  intro s
  rw [run_add _ 1 (run_eq_serve (List.append_nil s.schedule).symm)]
  exact run_one_of_exhausted rfl

end Sys2Proof.Machine
end

