-- ==== Sys2Proof/Proofs/StateRanges.lean ====
section
/-! PROOF. The ranges of the cursor, of the commanded speeds and of the DIFF results hold after reset and are kept by
every step (10_state.md section 9). -/

namespace Sys2Proof.Machine

open Sys2Proof.Safety

/-- A biased payload byte is a speed in -128..127 (43_command_dispatcher.md R178). -/
theorem speedOf_range (v : Byte) : -128 ≤ speedOf v ∧ speedOf v ≤ 127 := by
  have := v.isLt
  simp only [speedOf]
  omega

/-- DIFF answers a signed 16-bit value (41_position_counters.md R135(d)). -/
theorem difference_range (a b : Count) : -32768 ≤ difference a b ∧ difference a b ≤ 32767 := by
  have hlo := Int.le_bmod (x := (b.toNat : Int) - a.toNat) (m := 65536) (by decide)
  have hhi := Int.bmod_lt (x := (b.toNat : Int) - a.toNat) (m := 65536) (by decide)
  rw [difference_eq_bmod]
  omega

/-- Every speed a bus command drives a motor with is in -128..127: a biased payload byte, or 0 in the fail-safe. -/
theorem speed_range_of_mem_commandEvents {cfg : Config} {i : Instr} {ch : Fin 3} {v : Int}
    (h : OutEvent.motor ch v ∈ commandEvents cfg i) : -128 ≤ v ∧ v ≤ 127 := by
  cases i with
  | motorSpeedSet a b c k =>
    rw [commandEvents] at h
    split at h
    · simp only [List.mem_cons, OutEvent.motor.injEq, reduceCtorEq, List.not_mem_nil, or_false] at h
      obtain ⟨-, rfl⟩ | ⟨-, rfl⟩ | ⟨-, rfl⟩ := h <;> exact speedOf_range _
    · exact absurd h List.not_mem_nil
  | setSolidColour r g b k =>
    rw [commandEvents] at h
    split at h <;> simp at h
  | unrecognized o =>
    simp only [commandEvents, failsafeEvents, List.mem_cons, OutEvent.motor.injEq, reduceCtorEq, List.not_mem_nil,
      or_false] at h
    omega
  | encoderRead | dispatch | busWrite _ | busRead | sample _ | diff _ _ | reset => exact absurd h List.not_mem_nil

section
variable {s : State} (h : Inv s)
include h

theorem inv_emit {es : List OutEvent} (hes : ∀ ch v, OutEvent.motor ch v ∈ es → -128 ≤ v ∧ v ≤ 127) :
    Inv (s.emit es) := by
  obtain ⟨hcur, hev, hdiffs⟩ := h
  exact ⟨hcur, fun ch v hv => (List.mem_append.mp hv).elim (hev ch v) (hes ch v), hdiffs⟩

theorem inv_returnDiff {d : Int} (hd : -32768 ≤ d ∧ d ≤ 32767) : Inv (s.returnDiff d) := by
  obtain ⟨hcur, hev, hdiffs⟩ := h
  exact ⟨hcur, hev, fun d' hd' => (List.mem_append.mp hd').elim (hdiffs d') fun h => List.mem_singleton.mp h ▸ hd⟩

/-- The invariant speaks of the cursor, the events and the differences only. -/
theorem inv_of_cur_le {t : State} (hcur : t.cur ≤ 6) (hev : t.events = s.events) (hdiffs : t.diffs = s.diffs) :
    Inv t := by
  obtain ⟨-, hspeeds, hresults⟩ := h
  exact ⟨hcur, hev ▸ hspeeds, hdiffs ▸ hresults⟩

/-- Every transition keeps the ranges. -/
theorem Transition.inv {t : State} {i : Instr} (ht : Transition s i t) : Inv t := by
  have hcur : s.cur ≤ 6 := h.1
  cases ht with
  | motorSpeedSet _ _ _ _ | setSolidColour _ _ _ _ | unrecognized _ | dispatchEmit _ _ =>
    exact inv_emit (s := s.clearNd) h fun _ _ => speed_range_of_mem_commandEvents
  | encoderRead | dispatchEncoderRead _ _ => exact inv_of_cur_le h (Nat.zero_le 6) rfl rfl
  | busReadByte hlt => exact inv_of_cur_le h hlt rfl rfl
  | diff a b => exact inv_returnDiff h (difference_range a b)
  | reset => exact inv_of_cur_le h (Nat.le_refl 6) rfl rfl
  | dispatchIdle _ | busWrite _ | busReadSentinel _ | sample _ => exact inv_of_cur_le h hcur rfl rfl

end

/-- Settles O47: a step is a transition, or idles. -/
theorem stateRangesKept : Obligations.StateRangesKept := by
  intro s t hs hst
  obtain ⟨e, rest, -, h⟩ | ⟨-, -, h⟩ | ⟨-, -, h⟩ := step_cases s <;> rw [h] at hst
  · have hrest : Inv { s with schedule := rest } := hs
    exact effect_eq_of_exec hst ▸ (transition_effect _ _).inv hrest
  · exact effect_eq_of_exec hst ▸ (transition_effect _ _).inv hs
  · injection hst with hst
    exact hst ▸ hs

/-- Settles O48: at reset the cursor is 6 and nothing was commanded or compared; RESET is a transition. -/
theorem resetMeetsStateRanges : Obligations.ResetMeetsStateRanges :=
  ⟨⟨Nat.le_refl 6, fun _ _ h => absurd h List.not_mem_nil, fun _ h => absurd h List.not_mem_nil⟩,
    fun s hs => ⟨effect .reset s, exec_eq_effect .reset s, (transition_effect .reset s).inv hs⟩⟩

end Sys2Proof.Machine
end

