-- ==== Sys2Proof/Proofs/Encoding.lean ====
section
/-! PROOF. Decoding gives back every operation from its code (30_encoding.md sections 1 and 3). -/

namespace Sys2Proof.Machine

/-- The byte is none of the three opcodes (30_encoding.md R87). -/
theorem isOpcode_eq_false_iff {cfg : Config} {o : Byte} : cfg.isOpcode o = false ↔
    o ≠ cfg.opcMotorSpeedSet ∧ o ≠ cfg.opcSetSolidColour ∧ o ≠ cfg.opcEncoderRead := by
  simp [Config.isOpcode, and_assoc]

section
variable {cfg : Config} {f : Frame}

theorem decodeFrame_of_motorSpeedSet (h : f[0] = cfg.opcMotorSpeedSet) :
    decodeFrame cfg f = .motorSpeedSet f[1] f[2] f[3] f[4] := by
  rw [decodeFrame, if_pos h]

/-- The opcodes of an admissible configuration are distinct (00_scope.md R9), so the colour opcode is not the motor's. -/
theorem decodeFrame_of_setSolidColour (hcfg : cfg.Admissible) (h : f[0] = cfg.opcSetSolidColour) :
    decodeFrame cfg f = .setSolidColour f[1] f[2] f[3] f[4] := by
  obtain ⟨-, -, -, hmc, -⟩ := hcfg
  rw [decodeFrame, if_neg (h ▸ hmc.symm), if_pos h]

/-- ENCODER_READ is decoded from the first byte alone (30_encoding.md R82). -/
theorem decodeFrame_of_encoderRead (hcfg : cfg.Admissible) (h : f[0] = cfg.opcEncoderRead) :
    decodeFrame cfg f = .encoderRead := by
  obtain ⟨-, -, -, -, hme, hce, -⟩ := hcfg
  rw [decodeFrame, if_neg (h ▸ hme.symm), if_neg (h ▸ hce.symm), if_pos h]

/-- UNRECOGNIZED is decoded from the first byte alone (30_encoding.md R83). -/
theorem decodeFrame_of_not_isOpcode (h : cfg.isOpcode f[0] = false) : decodeFrame cfg f = .unrecognized f[0] := by
  obtain ⟨hm, hc, he⟩ := isOpcode_eq_false_iff.mp h
  exact decodeFrame_of_unrecognized hm hc he

end

/-- The two halves of DIFF's operand pair (spec/opcode_table.json: `a` in bits 31:16, `b` in bits 15:0). -/
theorem decode_readings_append (cfg : Config) (a b : Count) : decode cfg (.readings (a ++ b)) = .diff a b := by
  rw [decode, BitVec.extractLsb'_append_eq_left, BitVec.extractLsb'_append_eq_right]

/-- Decoding is a left inverse of encoding on the well-formed operations. -/
theorem decode_encode {cfg : Config} {i : Instr} (hcfg : cfg.Admissible) (hi : i.wellFormed cfg = true) :
    decode cfg (encode cfg i) = i := by
  cases i with
  | motorSpeedSet a b c k => exact decodeFrame_of_motorSpeedSet rfl
  | setSolidColour r g b k => exact decodeFrame_of_setSolidColour hcfg rfl
  | encoderRead => exact decodeFrame_of_encoderRead hcfg rfl
  | unrecognized o => exact decodeFrame_of_not_isOpcode ((Bool.not_eq_true' _).mp hi)
  | diff a b => exact decode_readings_append cfg a b
  | dispatch | busWrite _ | busRead | sample _ | reset => rfl

/-- Settles O49: the round trip, and the two formats that read the first byte alone. -/
theorem decodeInvertsEncode : Obligations.DecodeInvertsEncode :=
  ⟨fun _ _ => decode_encode, fun _ _ _ _ _ hcfg =>
    ⟨decodeFrame_of_encoderRead hcfg rfl, fun _ ho => decodeFrame_of_not_isOpcode ho⟩⟩

/-- Settles O50: six literal words, read by the decoder itself. -/
theorem tableWordsDecode : Obligations.TableWordsDecode := by
  unfold Obligations.TableWordsDecode
  decide

end Sys2Proof.Machine
end

