-- ==== Sys2Proof/Proofs/PortSamples.lean ====
section
/-! PROOF. The three samples are the port byte's own 2-bit fields (30_encoding.md section 7). -/

namespace Sys2Proof.Machine

/-- Values per axis are equal when they are so at every axis. -/
theorem PerAxis.ext_get {α : Type} {v w : PerAxis α} (h : ∀ x, v.get x = w.get x) : v = w := by
  obtain ⟨va, vb, vc⟩ := v
  obtain ⟨wa, wb, wc⟩ := w
  obtain rfl : va = wa := h .a
  obtain rfl : vb = wb := h .b
  obtain rfl : vc = wc := h .c
  rfl

/-- Each axis samples its own pins. -/
theorem samples_get (cfg : Config) (p : Byte) (x : Axis) :
    (samples cfg p).get x = sample2 p (cfg.shift.get x) := by
  cases x <;> rfl

/-- A reading placed at its pins, every other bit of the port clear. -/
def portField (n : Quad) (sh : Fin 7) : Byte := n.setWidth 8 <<< sh.val

/-- A field reads back as what was placed in it, and a disjoint field reads 00. -/
theorem sample2_portField (n : Quad) (sh : Fin 7) : sample2 (portField n sh) sh = n := by
  revert n sh
  decide

theorem sample2_portField_of_disjoint (n : Quad) {sh sh' : Fin 7} (h : groupsDisjoint sh sh') :
    sample2 (portField n sh) sh' = 0#2 := by
  revert n sh sh'
  decide

/-- Sampling goes bit by bit. -/
theorem sample2_or (p q : Byte) (sh : Fin 7) : sample2 (p ||| q) sh = sample2 p sh ||| sample2 q sh := by
  simp only [sample2, BitVec.ushiftRight_or_distrib, BitVec.setWidth_or]

/-- A port byte that presents the three readings `n`. -/
def portOf (cfg : Config) (n : PerAxis Quad) : Byte :=
  portField n.a cfg.shift.a ||| portField n.b cfg.shift.b ||| portField n.c cfg.shift.c

theorem groupsDisjoint_symm {x y : Fin 7} (h : groupsDisjoint x y) : groupsDisjoint y x := Or.symm h

/-- With disjoint pin groups (00_scope.md R9) the axes are read independently. -/
theorem samples_portOf {cfg : Config} (hcfg : cfg.Admissible) (n : PerAxis Quad) : samples cfg (portOf cfg n) = n := by
  obtain ⟨hab, hac, hbc, -⟩ := hcfg
  simp only [samples, portOf, sample2_or, sample2_portField, sample2_portField_of_disjoint _ hab,
    sample2_portField_of_disjoint _ hac, sample2_portField_of_disjoint _ hbc,
    sample2_portField_of_disjoint _ (groupsDisjoint_symm hab), sample2_portField_of_disjoint _ (groupsDisjoint_symm hac),
    sample2_portField_of_disjoint _ (groupsDisjoint_symm hbc), BitVec.or_zero, BitVec.zero_or]

/-- Two bytes with equal bits at an axis's pins give the axis the same sample. -/
theorem sample2_congr {p q : Byte} {sh : Fin 7} (h : ∀ k < 2, p.getLsbD (sh.val + k) = q.getLsbD (sh.val + k)) :
    sample2 p sh = sample2 q sh := by
  refine BitVec.eq_of_getLsbD_eq fun k hk => ?_
  rw [sample2_getLsbD p sh k hk, sample2_getLsbD q sh k hk, h k hk]

/-- By default C, B and A stand in bits 7:6, 5:4 and 3:2 (92_eei_decisions.md D3). -/
theorem samples_chip_append (c b a u : Quad) : samples Config.chip (c ++ b ++ a ++ u) = ⟨a, b, c⟩ := by
  revert c b a u
  decide

/-- Settles O8: `portOf` presents any three readings, and the default fields are read off the byte. -/
theorem samplesAreIndependentPortFields : Obligations.SamplesAreIndependentPortFields :=
  ⟨fun cfg hcfg n => ⟨portOf cfg n, samples_portOf hcfg n⟩, samples_chip_append⟩

/-- SAMPLE sees the port byte through its three samples only. -/
theorem sampleWith_congr {cfg : Config} {p q : Byte} (h : samples cfg p = samples cfg q) (s : State) :
    sampleWith cfg p s = sampleWith cfg q s := by
  simp only [sampleWith, h]

/-- Settles O9: the six encoder bits fix the three samples. -/
theorem unusedPortBitsIgnored : Obligations.UnusedPortBitsIgnored := by
  intro cfg p q s h
  refine sampleWith_congr (PerAxis.ext_get fun x => ?_) s
  rw [samples_get, samples_get, sample2_congr (h x)]

end Sys2Proof.Machine
end

