-- ==== Sys2Proof/Proofs/TransitionTable.lean ====
section
/-! PROOF. The transition table (40_quadrature_decoder.md section 3): facts of the standard table over its 16 pairs of
readings, carried to both polarities. -/

namespace Sys2Proof.Machine

open Sys2Proof.Safety

/-- The entry of the standard table for a pair of readings; a configuration's is its multiple by POL (`delta_eq`). -/
def stdDelta (prev new : Quad) : Int := tStd[(tableIndex prev new).toFin]

theorem delta_eq (cfg : Config) (prev new : Quad) : delta cfg prev new = cfg.pol.sign * stdDelta prev new := rfl

/-! ## The standard table -/

/-- The index is `new | (prev << 2)` (30_encoding.md R96). -/
theorem stdDelta_eq_getD : ∀ prev new : Quad,
    stdDelta prev new = tStd.toList.getD (prev.toNat <<< 2 ||| new.toNat) 0 := by decide

theorem stdDelta_range (prev new : Quad) : stdDelta prev new = -1 ∨ stdDelta prev new = 0 ∨ stdDelta prev new = 1 :=
  tStd_range (tableIndex prev new).toFin

theorem stdDelta_ne_zero_iff : ∀ prev new : Quad,
    stdDelta prev new ≠ 0 ↔ prev ^^^ new = 1 ∨ prev ^^^ new = 2 := by decide

theorem stdDelta_eq_zero_iff : ∀ prev new : Quad, stdDelta prev new = 0 ↔ prev = new ∨ prev ^^^ new = 3 := by decide

theorem stdDelta_antisymm : ∀ prev new : Quad, stdDelta new prev = -stdDelta prev new := by decide

/-- One step along `00 -> 10 -> 11 -> 01 -> 00` counts +1, from each of the four places. -/
theorem stdDelta_pinsAt_succ (n : Int) : stdDelta (pinsAt n) (pinsAt (n + 1)) = 1 := by
  have hplace : n % 4 = 0 ∧ (n + 1) % 4 = 1 ∨ n % 4 = 1 ∧ (n + 1) % 4 = 2 ∨
      n % 4 = 2 ∧ (n + 1) % 4 = 3 ∨ n % 4 = 3 ∧ (n + 1) % 4 = 0 := by omega
  obtain ⟨h, h'⟩ | ⟨h, h'⟩ | ⟨h, h'⟩ | ⟨h, h'⟩ := hplace <;> rw [pinsAt, pinsAt, h, h'] <;> decide

/-! ## Both polarities -/

theorem polarity_sign_eq (pol : Polarity) : pol.sign = 1 ∨ pol.sign = -1 := by
  cases pol
  · exact .inl rfl
  · exact .inr rfl

theorem delta_range (cfg : Config) (prev new : Quad) :
    delta cfg prev new = -1 ∨ delta cfg prev new = 0 ∨ delta cfg prev new = 1 := by
  have := stdDelta_range prev new
  obtain h | h := polarity_sign_eq cfg.pol <;> rw [delta_eq, h] <;> omega

theorem delta_eq_zero_iff_stdDelta (cfg : Config) (prev new : Quad) :
    delta cfg prev new = 0 ↔ stdDelta prev new = 0 := by
  obtain h | h := polarity_sign_eq cfg.pol <;> rw [delta_eq, h] <;> omega

theorem delta_eq_zero_iff (cfg : Config) (prev new : Quad) :
    delta cfg prev new = 0 ↔ prev = new ∨ prev ^^^ new = 3 := by
  rw [delta_eq_zero_iff_stdDelta, stdDelta_eq_zero_iff]

theorem delta_antisymm (cfg : Config) (prev new : Quad) : delta cfg new prev = -delta cfg prev new := by
  rw [delta_eq, delta_eq, stdDelta_antisymm, Int.mul_neg]

theorem delta_pinsAt_succ (cfg : Config) (n : Int) : delta cfg (pinsAt n) (pinsAt (n + 1)) = cfg.pol.sign := by
  rw [delta_eq, stdDelta_pinsAt_succ, Int.mul_one]

/-- Half of the 16 entries are zero and half are not, whatever the polarity. -/
theorem table_counts : ∀ pol : Polarity,
    (tStd.toList.map (pol.sign * ·)).countP (· == 0) = 8 ∧
    (tStd.toList.map (pol.sign * ·)).countP (fun d => d == 1 || d == -1) = 8
  | .plus => by decide
  | .minus => by decide

/-- Settles O6: the shape of the standard table, which a factor of +1 or -1 keeps. -/
theorem transitionTableShape : Obligations.TransitionTableShape := by
  intro cfg
  refine ⟨fun prev new => ?index, delta_range cfg, fun prev new => ?nonzero, delta_eq_zero_iff cfg, rfl,
    table_counts cfg.pol⟩
  case index => rw [delta_eq, stdDelta_eq_getD]
  case nonzero => rw [Ne, delta_eq_zero_iff_stdDelta, ← stdDelta_ne_zero_iff]

/-- Settles O7: one step forward counts POL, and the table is antisymmetric. -/
theorem transitionTableSigns : Obligations.TransitionTableSigns := by
  intro cfg
  refine ⟨delta_pinsAt_succ cfg, fun n => ?backward, delta_antisymm cfg⟩
  case backward => rw [delta_antisymm, delta_pinsAt_succ]

end Sys2Proof.Machine
end

