-- ==== Sys2Proof/Proofs/SampleLaws.lean ====
section
/-! PROOF. What follows of SAMPLE from the transition table (40_quadrature_decoder.md section 4). -/

namespace Sys2Proof.Machine

/-- A SAMPLE is known by the counters it leaves and the readings it takes. -/
theorem sampleWith_eq_of_axes {cfg : Config} {p : Byte} {s : State} {pos : PerAxis Count} {enc : PerAxis Quad}
    (hpos : ∀ x, (sampleWith cfg p s).pos.get x = pos.get x) (henc : samples cfg p = enc) :
    sampleWith cfg p s = { s with pos := pos, enc := enc } := by
  obtain rfl : (sampleWith cfg p s).pos = pos := PerAxis.ext_get hpos
  subst henc
  rfl

/-- Where the table has no count the counter stays. -/
theorem sampleWith_pos_of_delta_eq_zero {cfg : Config} {p : Byte} {s : State} {x : Axis}
    (h : delta cfg (s.enc.get x) ((samples cfg p).get x) = 0) : (sampleWith cfg p s).pos.get x = s.pos.get x := by
  rw [(sampleWith_axis cfg p s x).1, h, Int.mul_zero, countAdd_zero]

/-- Corner case (a): unchanged pins count nothing. -/
theorem sampleWith_of_samples_eq_enc {cfg : Config} {p : Byte} {s : State} (h : samples cfg p = s.enc) :
    sampleWith cfg p s = s :=
  sampleWith_eq_of_axes
    (fun _ => sampleWith_pos_of_delta_eq_zero ((delta_eq_zero_iff cfg _ _).mpr (.inl (h ▸ rfl)))) h

/-- Corner case (b): the way back counts the negative of the way there. -/
theorem sampleWith_sampleWith_of_samples_eq_enc {cfg : Config} {p : Byte} (q : Byte) {s : State}
    (h : samples cfg p = s.enc) : sampleWith cfg p (sampleWith cfg q s) = s := by
  refine sampleWith_eq_of_axes (pos := s.pos) (fun x => ?_) h
  obtain ⟨hpos, henc⟩ := sampleWith_axis cfg q s x
  rw [(sampleWith_axis cfg p _ x).1, hpos, henc, h, delta_antisymm cfg (s.enc.get x), countAdd_countAdd, Int.mul_neg,
    Int.add_right_neg, countAdd_zero]

/-- Settles O10: both corner cases, by the zero diagonal and the antisymmetry of the table. -/
theorem resampleAndBounceCancel : Obligations.ResampleAndBounceCancel :=
  ⟨fun _ _ _ => sampleWith_of_samples_eq_enc, fun _ _ q _ => sampleWith_sampleWith_of_samples_eq_enc q⟩

/-- Both bits changed. -/
theorem xor_xor_three (q : Quad) : q ^^^ (q ^^^ 3) = 3 := by
  rw [← BitVec.xor_assoc, BitVec.xor_self, BitVec.zero_xor]

/-- Settles O11: the table's entry is 0 where both bits changed, and SAMPLE retains every reading. -/
theorem skippedStateCountsNothing : Obligations.SkippedStateCountsNothing := by
  intro cfg p s x h
  refine ⟨sampleWith_pos_of_delta_eq_zero ?_, (sampleWith_axis cfg p s x).2.trans h⟩
  rw [h, delta_eq_zero_iff]
  exact .inr (xor_xor_three _)

/-- An axis is moved by -1, 0 or +1, whichever way it is wired. -/
theorem axisSign_mul_delta_range (cfg : Config) (x : Axis) (prev new : Quad) :
    axisSign x * delta cfg prev new = -1 ∨ axisSign x * delta cfg prev new = 0 ∨
    axisSign x * delta cfg prev new = 1 := by
  have := delta_range cfg prev new
  cases x <;> simp only [axisSign] <;> omega

/-- At reset every counter is 0 (70_reset_and_hazards.md R230). -/
theorem reset_pos_get (x : Axis) : State.reset.pos.get x = 0 := by
  cases x <;> rfl

/-- Settles O13: from 0 one count goes to 1 or wraps to 65535. -/
theorem firstSampleAfterReset : Obligations.FirstSampleAfterReset := by
  intro cfg p x
  rw [(sampleWith_axis cfg p State.reset x).1, reset_pos_get]
  obtain h | h | h := axisSign_mul_delta_range cfg x (State.reset.enc.get x) ((samples cfg p).get x) <;> rw [h]
  · exact .inr (.inr countAdd_zero_neg_one)
  · exact .inl (countAdd_zero 0)
  · exact .inr (.inl (by decide))

end Sys2Proof.Machine
end

