-- ==== Sys2Proof/Proofs/Motion.lean ====
section
/-! PROOF. The counters follow the motion of the encoders (70_reset_and_hazards.md section 3, 41_position_counters.md
section 4): a counter moves by the table deltas of its SAMPLE steps, and by nothing else. -/

namespace Sys2Proof.Machine

open Sys2Proof.Safety

/-! ## Tracked motion -/

theorem pinsOf_get (n : PerAxis Int) (x : Axis) : (pinsOf n).get x = pinsAt (n.get x) := by
  cases x <;> rfl

/-- A motion of at most one step counts exactly, up to the polarity. -/
theorem delta_pinsAt_of_nearStep (cfg : Config) {m n : Int} (h : NearStep m n) :
    delta cfg (pinsAt n) (pinsAt m) = cfg.pol.sign * (m - n) := by
  obtain ⟨hup, hdown⟩ := h
  have hmotion : m = n ∨ m = n + 1 ∨ n = m + 1 := by omega
  obtain rfl | rfl | rfl := hmotion
  · rw [Int.sub_self, Int.mul_zero, delta_eq_zero_iff]
    exact .inl rfl
  · rw [delta_pinsAt_succ, add_sub_cancel_left, Int.mul_one]
  · rw [delta_antisymm, delta_pinsAt_succ, sub_add_cancel_left, Int.mul_neg_one]

theorem lastPosition_cons (n m : PerAxis Int) (p : Byte) (track : List (PerAxis Int × Byte)) :
    lastPosition n ((m, p) :: track) = lastPosition m track := by
  rw [lastPosition, List.map_cons, List.getLastD_cons, lastPosition]

/-- Along a track the readings are those of the encoders, and each counter has moved by the axis's whole motion: the
motions of the single SAMPLE steps add up. -/
theorem sampleAll_of_tracks {cfg : Config} {n : PerAxis Int} {track : List (PerAxis Int × Byte)} {s : State}
    (henc : s.enc = pinsOf n) (htrack : Tracks cfg n track) :
    (sampleAll cfg (track.map Prod.snd) s).enc = pinsOf (lastPosition n track) ∧
    ∀ x, (sampleAll cfg (track.map Prod.snd) s).pos.get x =
      countAdd (s.pos.get x) (axisSign x * (cfg.pol.sign * ((lastPosition n track).get x - n.get x))) := by
  induction track generalizing n s with
  | nil => exact ⟨henc, fun x => by simp [lastPosition]⟩
  | cons q track ih =>
    obtain ⟨m, p⟩ := q
    obtain ⟨ha, hb, hc, hsamples, hrest⟩ := htrack
    have hnear : ∀ x, NearStep (m.get x) (n.get x)
      | .a => ha
      | .b => hb
      | .c => hc
    obtain ⟨henc', hpos'⟩ := ih (s := sampleWith cfg p s) hsamples hrest
    rw [List.map_cons, sampleAll_cons, lastPosition_cons]
    refine ⟨henc', fun x => ?_⟩
    rw [hpos', (sampleWith_axis cfg p s x).1, henc, hsamples, pinsOf_get, pinsOf_get,
      delta_pinsAt_of_nearStep cfg (hnear x), countAdd_countAdd, ← Int.mul_add, ← Int.mul_add, sub_add_sub_cancel']

/-- Serving SAMPLE events is sampling their port bytes. -/
theorem serve_samples (ps : List Byte) (s : State) : serve (ps.map Event.sample) s = sampleAll Config.chip ps s := by
  induction ps generalizing s with
  | nil => rfl
  | cons p ps ih => exact ih (sampleWith Config.chip p s)

/-- Settles O14: the whole motion of each axis is one counter update, which C, wired in reverse, subtracts; and the
machine serves the SAMPLE events of the track. -/
theorem trackedMotionCountedExactly : Obligations.TrackedMotionCountedExactly := by
  refine ⟨fun cfg n track s henc htrack => ?counters, fun track rest s h => ?steps⟩
  case counters =>
    obtain ⟨henc', hpos⟩ := sampleAll_of_tracks henc htrack
    have htoNat (x : Axis) := (congrArg (fun v => (v.toNat : Int)) (hpos x)).trans (countAdd_toNat _ _)
    have ha := htoNat .a
    have hb := htoNat .b
    have hc := htoNat .c
    simp only [axisSign, Int.one_mul] at ha hb
    simp only [axisSign, Int.neg_one_mul, ← Int.sub_eq_add_neg] at hc
    exact ⟨henc', ha, hb, hc⟩
  case steps =>
    have hmap : track.map (fun q => Event.sample q.2) = (track.map Prod.snd).map Event.sample :=
      (List.map_map ..).symm
    rw [hmap] at h
    rw [← serve_samples, ← run_eq_serve h, List.length_map, List.length_map]

/-! ## The net motion of a run -/

/-- The port byte of a SAMPLE event. -/
def Event.port? : Event → Option Byte
  | .sample p => some p
  | _ => none

/-- Of the events other than RESET only SAMPLE moves a counter or replaces a reading (10_state.md R22). -/
theorem effect_pos_enc_of_port?_eq_none {e : Event} (s : State) (hp : e.port? = none) (hr : e ≠ .reset) :
    (effect e.instr s).pos = s.pos ∧ (effect e.instr s).enc = s.enc := by
  refine (transition_effect e.instr s).pos_enc (fun p => ?_) ?_
  · cases e <;> simp [Event.instr, Event.port?] at hp ⊢
  · cases e <;> simp [Event.instr] at hr ⊢

/-- A run without RESET moves each counter by the sum of the table deltas of its SAMPLE events. -/
theorem serve_pos_get {es : List Event} (hr : Event.reset ∉ es) (s : State) (x : Axis) :
    (serve es s).pos.get x = countAdd (s.pos.get x)
      (axisSign x * (deltasOf Config.chip x (s.enc.get x) (es.filterMap Event.port?)).sum) := by
  induction es generalizing s with
  | nil => simp [deltasOf]
  | cons e es ih =>
    rw [List.mem_cons, not_or] at hr
    obtain ⟨he, hes⟩ := hr
    rw [serve_cons, ih hes]
    cases hp : e.port? with
    | none =>
      obtain ⟨hpos, henc⟩ := effect_pos_enc_of_port?_eq_none s hp (Ne.symm he)
      rw [hpos, henc, List.filterMap_cons_none hp]
    | some p =>
      obtain rfl : e = .sample p := by cases e <;> simp_all [Event.port?]
      obtain ⟨hpos, henc⟩ := sampleWith_axis Config.chip p s x
      have heffect : effect (Event.sample p).instr s = sampleWith Config.chip p s := rfl
      rw [heffect, hpos, henc, List.filterMap_cons_some hp, deltasOf, List.sum_cons, countAdd_countAdd, Int.mul_add]

theorem deltasOf_range (cfg : Config) (x : Axis) (prev : Quad) (ps : List Byte) :
    ∀ d ∈ deltasOf cfg x prev ps, d = -1 ∨ d = 0 ∨ d = 1 := by
  induction ps generalizing prev with
  | nil => exact fun d hd => absurd hd List.not_mem_nil
  | cons p ps ih => exact List.forall_mem_cons.mpr ⟨delta_range .., ih _⟩

/-- A sum of single steps is the number of steps up less the number of steps down. -/
theorem sum_eq_count_sub_count {ds : List Int} (h : ∀ d ∈ ds, d = -1 ∨ d = 0 ∨ d = 1) :
    ds.sum = (ds.count 1 : Int) - ds.count (-1) := by
  induction ds with
  | nil => rfl
  | cons d ds ih =>
    obtain ⟨hd, hds⟩ := List.forall_mem_cons.mp h
    rw [List.sum_cons, ih hds]
    obtain rfl | rfl | rfl := hd <;> simp <;> omega

/-- The net motion R139 gives an axis: its steps up less its steps down, by the sign of its wiring. -/
theorem serve_pos_get_eq_net {es : List Event} (hr : Event.reset ∉ es) (s : State) (x : Axis) :
    let ds := deltasOf Config.chip x (s.enc.get x) (es.filterMap Event.port?)
    (serve es s).pos.get x =
      countAdd (s.pos.get x) (axisSign x * ((ds.count 1 : Int) - (ds.count (-1) : Int))) := by
  intro ds
  rw [serve_pos_get hr, sum_eq_count_sub_count (deltasOf_range _ _ _ _)]

/-- Settles O15: the first event, RESET or not, is served, and the others move each counter by its net deltas, which DIFF
recovers (41_position_counters.md R133). -/
theorem netMotionLaw : Obligations.NetMotionLaw := by
  intro s e es rest h hr
  refine ⟨_, _, run_eq_serve (es := [e]) h, run_eq_serve (es := e :: es) h, fun x => ?_⟩
  have hpos := serve_pos_get_eq_net (es := es) hr (effect e.instr s) x
  have hnet := (congrArg (fun v => (v.toNat : Int)) hpos).trans (countAdd_toNat _ _)
  exact ⟨hnet, fun hlo hhi => diffRecoversMotion _ _ _ hlo hhi hnet⟩

end Sys2Proof.Machine
end

