-- ==== Sys2Proof/Proofs/DiffLaws.lean ====
section
/-! PROOF. The laws of DIFF, read off the 16-bit difference it sign-extends (41_position_counters.md R135). -/

namespace Sys2Proof.Machine

/-- DIFF is `sext_16((b - a) mod 2^16)` (41_position_counters.md R132). -/
theorem difference_eq_toInt (a b : Count) : difference a b = (b - a).toInt := by
  rw [difference_eq_bmod, BitVec.toInt_sub, BitVec.toInt_eq_toNat_bmod, BitVec.toInt_eq_toNat_bmod,
    Int.bmod_sub_bmod, Int.sub_bmod_bmod]

/-- Settles O17: DIFF appends its result and writes nothing else. -/
theorem diffReturnsSignExtendedDifference : Obligations.DiffReturnsSignExtendedDifference := by
  intro a b s
  rw [← difference_eq_toInt]
  rfl

/-- The two differences are negatives of each other, except at half range, where the negative has no 16-bit value. -/
theorem difference_antisymm {a b : Count} (h : b - a ≠ 0x8000) : difference b a = -difference a b := by
  rw [difference_eq_toInt, difference_eq_toInt, ← neg_sub b a, BitVec.toInt_neg_of_ne_intMin h]

/-- At half range both differences are -32768 (92_eei_decisions.md D21). -/
theorem difference_of_half_range {a b : Count} (h : b - a = 0x8000) : difference a b = -32768 := by
  rw [difference_eq_toInt, h]
  decide

/-- The half range is its own negative. -/
theorem half_range_symm {a b : Count} (h : b - a = 0x8000) : a - b = 0x8000 := by
  rw [← neg_sub b a, h]
  decide

/-- DIFF does not depend on where the counter started. -/
theorem difference_add_right (a b k : Count) : difference (a + k) (b + k) = difference a b := by
  rw [difference_eq_toInt, difference_eq_toInt, add_sub_add_right_eq_sub]

/-- Counting the difference from the earlier reading reaches the later one. -/
theorem countAdd_difference (a b : Count) : countAdd a (difference a b) = b := by
  rw [countAdd_eq, difference_eq_toInt, BitVec.ofInt_toInt, add_sub_cancel]

/-- Settles O18: each law is one of the 16-bit difference. -/
theorem diffLaws : Obligations.DiffLaws := by
  refine ⟨fun a => ?identity, fun _ _ => difference_antisymm,
    fun _ _ h => ⟨difference_of_half_range h, difference_of_half_range (half_range_symm h)⟩, difference_add_right,
    difference_range, fun a b => ?addBack⟩
  case identity => rw [difference_eq_toInt, BitVec.sub_self, BitVec.toInt_zero]
  case addBack => rw [← countAdd_toNat, countAdd_difference]

end Sys2Proof.Machine
end

