-- ==== Sys2Proof/Proofs/BusCommands.lean ====
section
/-! PROOF. The bus commands with their checksums (30_encoding.md section 2, 43_command_dispatcher.md sections 3 to 5), and
RESET (70_reset_and_hazards.md section 1). -/

namespace Sys2Proof.Machine

/-! ## MOTOR_SPEED_SET, the fail-safe and RESET -/

/-- Settles O31: the checksum test is met, so the command emits its four events on the cleared flag. -/
theorem motorSpeedSetDrivesChannels : Obligations.MotorSpeedSetDrivesChannels := by
  intro a b c s
  rw [exec_motorSpeedSet, doMotorSpeedSet, if_pos ((checksumOk_iff _ _ _ _ _).mpr rfl)]
  rfl

/-- A colour command with its checksum emits its colour (43_command_dispatcher.md R177). -/
theorem exec_setSolidColour_of_good_checksum (r g b : Byte) (s : State) :
    exec (.setSolidColour r g b (Config.chip.opcSetSolidColour ^^^ r ^^^ g ^^^ b)) s =
      .next { s with nd := false, events := s.events ++ [.lightSolid ⟨r, g, b⟩] } := by
  rw [setSolidColourEmitsLiteral, if_pos rfl]

/-- Settles O38: the fail-safe is one emission, and the command after it finds the state it would find without it. -/
theorem failsafeEventsAndNoLatch : Obligations.FailsafeEventsAndNoLatch :=
  ⟨fun _ _ => rfl, fun o s => ⟨_, exec_unrecognized o s, rfl, fun a b c => motorSpeedSetDrivesChannels a b c _,
    fun r g b => exec_setSolidColour_of_good_checksum r g b _⟩⟩

/-- Settles O46: RESET writes the values of `State.reset`, which are the ones of the statement. -/
theorem resetRestoresRegisters : Obligations.ResetRestoresRegisters :=
  ⟨fun _ => rfl, rfl, rfl, rfl, rfl, rfl, rfl, rfl, rfl⟩

/-! ## Biased speeds -/

/-- The bias of 128 is the flip of the sign bit: `sext_8(v ^ 0x80)` (30_encoding.md R84). -/
theorem speedOf_eq_toInt_xor (v : Byte) : speedOf v = (v ^^^ 0x80).toInt := by
  revert v
  decide

/-- The payload byte of a speed (30_encoding.md R94) is read back as that speed. -/
theorem speedOf_ofInt {z : Int} (hlo : -128 ≤ z) (hhi : z ≤ 127) : speedOf (BitVec.ofInt 8 (z + 128)) = z := by
  rw [speedOf, BitVec.toNat_ofInt]
  omega

/-- Different payload bytes are different speeds. -/
theorem speedOf_injective : Function.Injective speedOf := by
  intro v w h
  apply BitVec.eq_of_toNat_eq
  simp only [speedOf] at h
  omega

/-- The motor events of a motor command are its three channels' speeds. -/
theorem motor_mem_motorEvents_iff (f : Frame) (ch : Fin 3) (z : Int) :
    OutEvent.motor ch z ∈ [.motor 0 (speedOf f[1]), .motor 1 (speedOf f[2]), .motor 2 (speedOf f[3]),
      .lightMotorPattern f[1] f[2] f[3]] ↔ z = speedOf f[1 + ch.val] := by
  fin_cases ch <;> simp

/-- Settles O32: the bias is a bijection, and a dispatched motor frame with its checksum emits one speed per channel. -/
theorem payloadBytesAreBiasedSpeeds : Obligations.PayloadBytesAreBiasedSpeeds := by
  refine ⟨fun v => ⟨rfl, (speedOf_range v).1, (speedOf_range v).2, speedOf_eq_toInt_xor v⟩,
    fun z hlo hhi => ⟨BitVec.ofInt 8 (z + 128), speedOf_ofInt hlo hhi, fun v hv => ?unique⟩,
    fun s hnd hop hck => ?channels⟩
  case unique => exact speedOf_injective (hv.trans (speedOf_ofInt hlo hhi).symm)
  case channels =>
    have hexec := motorSpeedSetDrivesChannels s.cmd[1] s.cmd[2] s.cmd[3] s
    rw [← hop, hck] at hexec
    rw [← decodeFrame_of_motorSpeedSet hop, ← exec_dispatch_of_nd_true hnd] at hexec
    exact ⟨_, _, hexec, rfl, motor_mem_motorEvents_iff s.cmd⟩

/-! ## The checksum and flipped bits -/

/-- The XOR of all five bytes of a frame: 0 where the checksum is good (30_encoding.md R86). -/
def frameXor (f : Vector Byte 5) : Byte := xorF5 f[0] f[1] f[2] f[3] ^^^ f[4]

theorem checksumOk_iff_frameXor (f : Frame) : checksumOk f[0] f[1] f[2] f[3] f[4] = true ↔ frameXor f = 0#8 := by
  rw [checksumOk, beq_iff_eq, frameXor, BitVec.xor_eq_zero_iff]

/-- Flipping the bits `m` of one byte flips them in the XOR. -/
theorem frameXor_set_xor (f : Vector Byte 5) (i : Fin 5) (m : Byte) :
    frameXor (f.set i (f[i] ^^^ m)) = frameXor f ^^^ m := by
  fin_cases i <;> simp [frameXor, xorF5] <;> ac_rfl

/-- Settles O39: one flipped bit leaves the XOR nonzero. -/
theorem checksumDetectsEveryBitFlip : Obligations.ChecksumDetectsEveryBitFlip := by
  intro f i j hgood
  have hbit : ∀ j : Fin 8, (1 : Byte) <<< j.val ≠ 0#8 := by decide
  rw [← Bool.not_eq_true, checksumOk_iff_frameXor, frameXor_set_xor, (checksumOk_iff_frameXor f).mp hgood,
    BitVec.zero_xor]
  exact hbit j

/-- A good motor frame whose opcode byte became the colour's has a bad checksum (43_command_dispatcher.md R184(b)). -/
theorem colour_checksum_ne_of_motor_checksum (a b c : Byte) :
    Config.chip.opcSetSolidColour ^^^ a ^^^ b ^^^ c ≠ 0x20 ^^^ a ^^^ b ^^^ c := by
  have hopc : Config.chip.opcSetSolidColour ≠ 0x20 := by decide
  simpa using hopc

/-- A flipped opcode bit other than 0 and 1 gives no opcode. -/
theorem not_isOpcode_flip : ∀ j : Fin 8, j.val ≠ 0 → j.val ≠ 1 →
    Config.chip.isOpcode (0x20 ^^^ ((1 : Byte) <<< j.val)) = false := by decide

/-- Settles O40: bit 0 gives the colour opcode, whose checksum fails; bit 1 gives ENCODER_READ; any other bit no opcode. -/
theorem opcodeBitFlipOutcomes : Obligations.OpcodeBitFlipOutcomes := by
  intro a b c j s hnd hcmd
  rw [exec_dispatch_of_nd_true hnd]
  split
  case isTrue h0 =>
    have hcolour : decodeFrame Config.chip s.cmd = .setSolidColour a b c (0x20 ^^^ a ^^^ b ^^^ c) := by
      rw [hcmd, h0]
      exact decodeFrame_of_setSolidColour chip_admissible rfl
    rw [hcolour]
    exact badChecksumDropsCommand.2 a b c _ s (colour_checksum_ne_of_motor_checksum a b c)
  case isFalse h0 =>
    split
    case isTrue h1 =>
      rw [decodeFrame_of_encoderRead chip_admissible]
      rw [hcmd, h1]
      rfl
    case isFalse h1 =>
      have hop : s.cmd[0] = 0x20 ^^^ ((1 : Byte) <<< j.val) := by rw [hcmd]; rfl
      rw [decodeFrame_of_not_isOpcode (hop ▸ not_isOpcode_flip j h0 h1), hop]

end Sys2Proof.Machine
end

