-- ==== Sys2Proof/Proofs/CommandFrames.lean ====
section
/-! PROOF. A write and the DISPATCH after it: which bytes are decoded (42_bus_transport.md section 2,
43_command_dispatcher.md section 6). -/

namespace Sys2Proof.Machine

open Sys2Proof.Safety

/-! ## A pending frame -/

/-- A write leaves its buffer pending and nothing else changed (42_bus_transport.md R151). -/
theorem exec_busWrite_of_cmd {w : List Byte} {s : State} {f : Frame} (h : (s.writeCmd w).cmd = f) :
    exec (.busWrite w) s = .next { s with cmd := f, nd := true } := by
  subst h
  rfl

/-- DISPATCH runs the command the pending frame decodes to. -/
theorem exec_dispatch_pending (f : Frame) (s : State) :
    exec .dispatch { s with cmd := f, nd := true } =
      exec (decodeFrame Config.chip f) { s with cmd := f, nd := true } :=
  exec_dispatch_of_nd_true rfl

theorem writeCmd_nil_cmd (s : State) : (s.writeCmd []).cmd = s.cmd :=
  Vector.ext fun _ hi => writeCmd_get_of_le s [] hi (Nat.zero_le _)

/-- A one-byte write replaces the opcode byte and keeps the tail (42_bus_transport.md R153). -/
theorem writeCmd_singleton_cmd (s : State) (o : Byte) :
    (s.writeCmd [o]).cmd = frameF5 o s.cmd[1] s.cmd[2] s.cmd[3] s.cmd[4] := rfl

/-- A five-byte write replaces the whole buffer. -/
theorem writeCmd_five_cmd (s : State) (op p1 p2 p3 ck : Byte) :
    (s.writeCmd [op, p1, p2, p3, ck]).cmd = frameF5 op p1 p2 p3 ck := rfl

/-- Settles O22: a write without bytes keeps the buffer, and DISPATCH decodes it. -/
theorem emptyWriteRepeatsCommand : Obligations.EmptyWriteRepeatsCommand :=
  fun s => ⟨exec_busWrite_of_cmd (writeCmd_nil_cmd s), exec_dispatch_pending s.cmd s⟩

/-! ## A second write before DISPATCH -/

/-- Where the later write supplies every byte the earlier one does, the buffer is the later one's. -/
theorem writeCmd_writeCmd_cmd {w1 w2 : List Byte} (h : w1.length ≤ w2.length ∨ 5 ≤ w2.length) (s : State) :
    ((s.writeCmd w1).raiseNd.writeCmd w2).cmd = (s.writeCmd w2).cmd := by
  refine Vector.ext fun i hi => ?_
  by_cases h2 : i < w2.length
  · rw [writeCmd_get_of_lt _ _ hi h2, writeCmd_get_of_lt _ _ hi h2]
  · rw [writeCmd_get_of_le _ _ hi (Nat.le_of_not_lt h2), writeCmd_get_of_le _ _ hi (Nat.le_of_not_lt h2)]
    exact writeCmd_get_of_le s w1 hi (by omega)

/-- Settles O21: each byte is the last one written to it, and one DISPATCH decodes the merged buffer and clears the flag. -/
theorem pendingCommandOverwritten : Obligations.PendingCommandOverwritten := by
  intro w1 w2 s
  refine ⟨(s.writeCmd w1).raiseNd, ((s.writeCmd w1).raiseNd.writeCmd w2).raiseNd, _, exec_busWrite w1 s, rfl,
    exec_busWrite w2 _, rfl, fun i hi => ?bytes, fun h => ?noTrace, exec_dispatch_of_nd_true rfl,
    exec_eq_effect .dispatch _, (transition_effect .dispatch _).nd_dispatch rfl⟩
  case bytes =>
    split
    case isTrue h2 => exact writeCmd_get_of_lt _ w2 hi h2
    case isFalse h2 =>
      rw [State.raiseNd_cmd, writeCmd_get_of_le _ w2 hi (Nat.le_of_not_lt h2)]
      split
      case isTrue h1 => exact writeCmd_get_of_lt s w1 hi h1
      case isFalse h1 => exact writeCmd_get_of_le s w1 hi (Nat.le_of_not_lt h1)
  case noTrace => exact exec_busWrite_of_cmd (writeCmd_writeCmd_cmd h s).symm

/-! ## Stale bytes -/

/-- Settles O41: both one-byte writes keep the tail, whose checksum is the motor frame's. -/
theorem staleTailIsValidated : Obligations.StaleTailIsValidated := by
  intro a b c s h
  have hwrite (o : Byte) : (s.writeCmd [o]).cmd = frameF5 o a b c (0x20 ^^^ a ^^^ b ^^^ c) := by
    rw [writeCmd_singleton_cmd, h]
    rfl
  refine ⟨_, _, exec_busWrite_of_cmd (hwrite 0x20), exec_busWrite_of_cmd (hwrite 0x21), ?motor, ?colour⟩
  case motor =>
    have hmotor : decodeFrame Config.chip (frameF5 0x20 a b c (0x20 ^^^ a ^^^ b ^^^ c)) =
        .motorSpeedSet a b c (0x20 ^^^ a ^^^ b ^^^ c) := decodeFrame_of_motorSpeedSet rfl
    rw [exec_dispatch_pending, hmotor, ← h]
    exact motorSpeedSetDrivesChannels a b c _
  case colour =>
    rw [exec_dispatch_pending, decodeFrame_of_setSolidColour chip_admissible rfl]
    exact badChecksumDropsCommand.2 a b c _ _ (colour_checksum_ne_of_motor_checksum a b c)

/-- Settles O42: only the first byte of the write decides, and the fail-safe acts on the cleared flag. -/
theorem overlongUnrecognizedFrameFailsSafe : Obligations.OverlongUnrecognizedFrameFailsSafe := by
  intro o w s ho
  refine ⟨_, _, exec_busWrite (o :: w) s, ?_, rfl⟩
  have hop : (s.writeCmd (o :: w)).raiseNd.cmd[0] = o := writeCmd_get_of_lt s (o :: w) (by decide) (Nat.succ_pos _)
  rw [exec_dispatch_of_nd_true rfl, decodeFrame_of_not_isOpcode (hop.symm ▸ ho)]
  exact exec_unrecognized _ _

/-- F1 and FU frames are decoded from the first byte alone (30_encoding.md R82, R83). -/
theorem decodeFrame_congr_of_not_f5 {cfg : Config} {f g : Frame} (h : f[0] = g[0]) (hm : f[0] ≠ cfg.opcMotorSpeedSet)
    (hc : f[0] ≠ cfg.opcSetSolidColour) : decodeFrame cfg f = decodeFrame cfg g := by
  rw [decodeFrame, decodeFrame, if_neg hm, if_neg hc, ← h, if_neg hm, if_neg hc]

/-- A full-length write (70_reset_and_hazards.md R243) decodes alike whatever the buffer held: a F5 frame fills it, and
of any other frame only the first byte counts. -/
theorem decodeFrame_writeCmd_of_fullLength {w : List Byte} (h : FullLengthWrite Config.chip w) (s s' : State) :
    decodeFrame Config.chip (s.writeCmd w).cmd = decodeFrame Config.chip (s'.writeCmd w).cmd := by
  obtain ⟨hne, hf5, -⟩ := h
  cases w with
  | nil => exact absurd rfl hne
  | cons o w =>
    have hop (t : State) : (t.writeCmd (o :: w)).cmd[0] = o :=
      writeCmd_get_of_lt t (o :: w) (by decide) (Nat.succ_pos _)
    by_cases ho : o = Config.chip.opcMotorSpeedSet ∨ o = Config.chip.opcSetSolidColour
    · have hlen : (o :: w).length = 5 := hf5 (ho.imp (congrArg some) (congrArg some))
      congr 1
      refine Vector.ext fun i hi => ?_
      rw [writeCmd_get_of_lt s _ hi (hlen ▸ hi), writeCmd_get_of_lt s' _ hi (hlen ▸ hi)]
    · obtain ⟨hm, hc⟩ := not_or.mp ho
      exact decodeFrame_congr_of_not_f5 ((hop s).trans (hop s').symm) (hop s ▸ hm) (hop s ▸ hc)

/-- A decoded command does not read the buffer again. -/
theorem actCommand_withCmd (s : State) (f old : Frame) :
    actCommand Config.chip { s with cmd := old } (decodeFrame Config.chip f) =
      { actCommand Config.chip s (decodeFrame Config.chip f) with cmd := old } := by
  rcases decodeFrame_cases Config.chip f with ⟨-, h⟩ | ⟨-, -, h⟩ | ⟨-, -, -, h⟩ | ⟨-, -, -, h⟩ <;>
    simp only [h, actCommand]
  · rw [doMotorSpeedSet_eq_emit, doMotorSpeedSet_eq_emit]; rfl
  · rw [doSetSolidColour_eq_emit_commandEvents, doSetSolidColour_eq_emit_commandEvents]; rfl
  · rw [doEncoderRead_coherent _ _ rfl, doEncoderRead_coherent _ _ rfl]; rfl
  · rfl

/-- A state that differs from another in a known buffer differs from it in its own buffer. -/
theorem eq_withCmd {t t' : State} {c : Frame} (h : t' = { t with cmd := c }) : t' = { t with cmd := t'.cmd } := by
  subst h
  rfl

/-- Settles O23: both runs dispatch the same command, which acts on states that differ in the buffer alone. -/
theorem fullLengthFramesIgnoreStaleBytes : Obligations.FullLengthFramesIgnoreStaleBytes := by
  intro w s old h
  refine ⟨_, _, _, _, exec_busWrite w s, exec_busWrite w _,
    (exec_dispatch_of_nd_true rfl).trans (exec_decodeFrame _ _),
    (exec_dispatch_of_nd_true rfl).trans (exec_decodeFrame _ _), ?_⟩
  rw [State.raiseNd_cmd, State.raiseNd_cmd, decodeFrame_writeCmd_of_fullLength h { s with cmd := old } s]
  exact eq_withCmd (actCommand_withCmd (s.writeCmd w).raiseNd.clearNd _ (State.writeCmd { s with cmd := old } w).cmd)

end Sys2Proof.Machine
end

