-- ==== Sys2Proof/Proofs/NewDataFlag.lean ====
section
/-! PROOF. The new-data flag along a run: raised by writes only, cleared by each dispatch (43_command_dispatcher.md
section 1, 70_reset_and_hazards.md section 3). -/

namespace Sys2Proof.Machine

open Sys2Proof.Safety

theorem instr_ne_busWrite {e : Event} (h : ∀ w, e ≠ .busWrite w) (w : List Byte) : e.instr ≠ .busWrite w := by
  cases e <;> simp [Event.instr] at h ⊢

/-- Without a write the flag stays clear. -/
theorem serve_nd_of_no_busWrite {es : List Event} (hw : ∀ e ∈ es, ∀ w, e ≠ .busWrite w) {s : State}
    (hnd : s.nd = false) : (serve es s).nd = false := by
  induction es generalizing s with
  | nil => exact hnd
  | cons e es ih =>
    obtain ⟨he, hes⟩ := List.forall_mem_cons.mp hw
    refine ih hes (Bool.eq_false_iff.mpr fun hraised => ?_)
    have := (transition_effect e.instr s).nd_of_nd (instr_ne_busWrite he) hraised
    exact Bool.false_ne_true (hnd.symm.trans this)

/-- Settles O29: the first DISPATCH clears the flag, which then stays clear. -/
theorem commandDispatchedAtMostOnce : Obligations.CommandDispatchedAtMostOnce := by
  intro s es hw h
  have hnd : (serve (.dispatch :: es) s).nd = false :=
    serve_nd_of_no_busWrite hw ((transition_effect .dispatch s).nd_dispatch rfl)
  exact ⟨_, run_eq_serve (es := .dispatch :: es) (h.trans (List.append_nil _).symm), hnd,
    exec_dispatch_of_nd_false hnd⟩

/-- The host's duty R240 goes on from the flag each event leaves. -/
theorem writesSpaced_effect {s : State} {e : Event} {es : List Event} (h : WritesSpaced s.nd (e :: es)) :
    WritesSpaced (effect e.instr s).nd es := by
  have ht := transition_effect e.instr s
  cases e with
  | busWrite w => exact h.2
  | dispatch => exact (ht.nd_dispatch rfl).symm ▸ h
  | sample p => exact h
  | busRead => exact (ht.nd_eq (.inl rfl)).symm ▸ h
  | diff a b => exact h
  | reset => exact h

/-- Under the duty every write of the schedule is reached with the flag clear. -/
theorem serve_take_nd_of_writesSpaced {es : List Event} {s : State} (h : WritesSpaced s.nd es) {k : Nat}
    {w : List Byte} (hk : es[k]? = some (.busWrite w)) : (serve (es.take k) s).nd = false := by
  induction es generalizing s k with
  | nil => exact nomatch hk
  | cons e es ih =>
    cases k with
    | zero =>
      obtain rfl : e = .busWrite w := Option.some.inj hk
      exact h.1
    | succ k => exact ih (writesSpaced_effect h) hk

/-- Settles O24: the run to position `k` serves the events before it, and the write is next. -/
theorem spacedWritesFindFlagClear : Obligations.SpacedWritesFindFlagClear := by
  intro s es rest h hspaced k w hk
  obtain ⟨hlt, hget⟩ := List.getElem?_eq_some_iff.mp hk
  have hdrop : es.drop k = .busWrite w :: es.drop (k + 1) := by rw [List.drop_eq_getElem_cons hlt, hget]
  have hsplit : s.schedule = es.take k ++ (es.drop k ++ rest) := by
    rw [h, ← List.append_assoc, List.take_append_drop]
  have hrun := run_eq_serve hsplit
  rw [List.length_take_of_le hlt.le] at hrun
  exact ⟨_, hrun, serve_take_nd_of_writesSpaced hspaced hk, congrArg (· ++ rest) hdrop⟩

end Sys2Proof.Machine
end

