-- ==== Sys2Proof/Proofs/Readout.lean ====
section
/-! PROOF. The snapshot and the bytes read from it (20_memory.md section 3, 42_bus_transport.md section 3). -/

namespace Sys2Proof.Machine

open Sys2Proof.Safety

/-! ## What a snapshot holds -/

/-- Each byte pair of a latched snapshot is one whole counter value (20_memory.md R55). -/
theorem snapshotBytes_pairs (vc vb va : Count) :
    (snapshotBytes vc vb va)[0] ++ (snapshotBytes vc vb va)[1] = vc ∧
    (snapshotBytes vc vb va)[2] ++ (snapshotBytes vc vb va)[3] = vb ∧
    (snapshotBytes vc vb va)[4] ++ (snapshotBytes vc vb va)[5] = va :=
  ⟨hiByte_append_loByte vc, hiByte_append_loByte vb, hiByte_append_loByte va⟩

/-- Without coherence the SAMPLE steps between the copies are served inside the command (20_memory.md R56). -/
theorem doEncoderRead_of_not_coherent (cfg : Config) (s : State) (h : cfg.snapshotCoherent = false) :
    doEncoderRead cfg s =
      ((sampleAll cfg (s.midCopy.afterC ++ s.midCopy.afterB) s).latch s.pos.c (sampleAll cfg s.midCopy.afterC s).pos.b
        (sampleAll cfg (s.midCopy.afterC ++ s.midCopy.afterB) s).pos.a).dropMidCopy := by
  rw [doEncoderRead, h, if_neg Bool.false_ne_true, sampleAll_append]

/-- Settles O36: with or without coherence the snapshot is one latch of three counter values. -/
theorem snapshotNeverTorn : Obligations.SnapshotNeverTorn := by
  refine fun cfg s => ⟨fun h => ?coherent, fun h => ?loose⟩
  case coherent =>
    rw [doEncoderRead_coherent cfg s h]
    obtain ⟨hc, hb, ha⟩ := snapshotBytes_pairs s.pos.c s.pos.b s.pos.a
    exact ⟨hc, hb, ha, rfl, rfl⟩
  case loose =>
    rw [doEncoderRead_of_not_coherent cfg s h]
    obtain ⟨hc, hb, ha⟩ := snapshotBytes_pairs s.pos.c (sampleAll cfg s.midCopy.afterC s).pos.b
      (sampleAll cfg (s.midCopy.afterC ++ s.midCopy.afterB) s).pos.a
    exact ⟨hc, hb, ha, rfl, rfl, rfl⟩

/-! ## Before the first snapshot -/

/-- As long as no ENCODER_READ runs, the snapshot stays exhausted, so that a read returns the sentinel. -/
theorem Transition.noSnapshotYet {s t : State} {i : Instr} (h : Transition s i t) (hs : NoSnapshotYet s)
    (he : ¬RunsEncoderRead s i) : NoSnapshotYet t ∧ (i = .busRead → t.reads = s.reads ++ [0]) := by
  cases h with
  | encoderRead => exact absurd (.inl rfl) he
  | dispatchEncoderRead hnd hop => exact absurd (.inr ⟨rfl, hnd, hop⟩) he
  | busReadByte hcur => exact absurd hs.2 (Nat.ne_of_lt hcur)
  | busReadSentinel _ => exact ⟨hs, fun _ => rfl⟩
  | reset => exact ⟨⟨rfl, rfl⟩, nofun⟩
  | motorSpeedSet _ _ _ _ | setSolidColour _ _ _ _ | unrecognized _ | dispatchIdle _ | dispatchEmit _ _ | busWrite _
  | sample _ | diff _ _ => exact ⟨hs, nofun⟩

/-- Settles O27: the reset values hold it, and every other operation keeps it. -/
theorem readsZeroBeforeFirstSnapshot : Obligations.ReadsZeroBeforeFirstSnapshot :=
  ⟨⟨rfl, rfl⟩, fun i s hs he hd =>
    ⟨effect i s, exec_eq_effect i s, (transition_effect i s).noSnapshotYet hs (not_or_intro he hd)⟩⟩

/-! ## The read-out stream -/

/-- `j` bytes of the snapshot `snap` have been read; the cursor stops behind the sixth (42_bus_transport.md R156). -/
def ReadAt (snap : Vector Byte 6) (j : Nat) (s : State) : Prop := s.snap = snap ∧ s.cur = min j 6

/-- A read returns the next byte of the stream. -/
theorem Transition.readAt_busRead {s t : State} {snap : Vector Byte 6} {j : Nat} (h : Transition s .busRead t)
    (hs : ReadAt snap j s) : ReadAt snap (j + 1) t ∧ t.reads = s.reads ++ [streamByte snap j] := by
  obtain ⟨rfl, hcur⟩ := hs
  cases h with
  | busReadByte hlt =>
    obtain rfl : s.cur = j := by omega
    refine ⟨⟨rfl, ?_⟩, ?_⟩
    · rw [State.returnByte_cur, State.advanceCur_cur]
      omega
    · rw [streamByte, dif_pos hlt]
      rfl
  | busReadSentinel hle =>
    have hj : ¬ j < 6 := by omega
    refine ⟨⟨rfl, ?_⟩, ?_⟩
    · rw [State.returnByte_cur]
      omega
    · rw [streamByte, dif_neg hj]
      rfl

theorem Transition.readAt {s t : State} {i : Instr} {snap : Vector Byte 6} {j : Nat} (h : Transition s i t)
    (hs : ReadAt snap j s) (he : ¬RunsEncoderRead s i) (hr : i ≠ .reset) (hb : i ≠ .busRead) : ReadAt snap j t := by
  obtain ⟨hsnap, hcur⟩ := hs
  exact ⟨(h.snap he hr).trans hsnap, (h.cur he hr hb).trans hcur⟩

/-- A write sets the opcode byte to its first byte, if it has one (42_bus_transport.md R151, R154). -/
theorem writeCmd_opcode (s : State) (w : List Byte) : (s.writeCmd w).cmd[0] = w.headD s.cmd[0] := by
  cases w <;> rfl

theorem not_runsEncoderRead {s : State} {i : Instr} (he : i ≠ .encoderRead) (hd : i ≠ .dispatch) :
    ¬Transition.RunsEncoderRead s i :=
  not_or_intro he fun hrun => hd hrun.1

/-- The premise on the schedule: its head runs no ENCODER_READ and no RESET, and the premise goes on from the buffer and
the flag it leaves. -/
theorem keepsSnapshot_effect {s : State} {e : Event} {es : List Event}
    (h : KeepsSnapshot Config.chip s.cmd[0] s.nd (e :: es)) :
    ¬Transition.RunsEncoderRead s e.instr ∧ e.instr ≠ .reset ∧
    KeepsSnapshot Config.chip (effect e.instr s).cmd[0] (effect e.instr s).nd es := by
  have ht := transition_effect e.instr s
  cases e with
  | dispatch =>
    obtain ⟨hop, hrest⟩ := h
    refine ⟨not_or_intro nofun fun hrun => hop hrun.2, nofun, ?_⟩
    rw [ht.cmd nofun nofun, ht.nd_dispatch rfl]
    exact hrest
  | busWrite w =>
    have hop : (effect (Event.busWrite w).instr s).cmd[0] = w.headD s.cmd[0] := writeCmd_opcode s w
    exact ⟨not_runsEncoderRead nofun nofun, nofun, hop ▸ h⟩
  | busRead =>
    refine ⟨not_runsEncoderRead nofun nofun, nofun, ?_⟩
    rw [ht.cmd nofun nofun, ht.nd_eq (.inl rfl)]
    exact h
  | sample p => exact ⟨not_runsEncoderRead nofun nofun, nofun, h⟩
  | diff a b => exact ⟨not_runsEncoderRead nofun nofun, nofun, h⟩
  | reset => exact h.elim

/-- The reads of a run that keeps the snapshot return its stream from where the run began. -/
theorem serve_reads_of_keepsSnapshot {es : List Event} {s : State} {snap : Vector Byte 6} {j : Nat}
    (hkeeps : KeepsSnapshot Config.chip s.cmd[0] s.nd es) (hs : ReadAt snap j s) :
    ReadAt snap (j + es.count .busRead) (serve es s) ∧
    (serve es s).reads = s.reads ++ (List.range' j (es.count .busRead)).map (streamByte snap) := by
  induction es generalizing s j with
  | nil => exact ⟨hs, (List.append_nil _).symm⟩
  | cons e es ih =>
    obtain ⟨he, hr, hrest⟩ := keepsSnapshot_effect hkeeps
    have ht := transition_effect e.instr s
    by_cases hb : e = .busRead
    · subst hb
      obtain ⟨hs', hreads⟩ := ht.readAt_busRead hs
      obtain ⟨hend, hstream⟩ := ih hrest hs'
      rw [List.count_cons_self, List.range'_succ, List.map_cons, serve_cons, hstream, hreads, List.append_assoc]
      refine ⟨?_, rfl⟩
      rwa [Nat.add_comm _ 1, ← Nat.add_assoc]
    · have hb' : e.instr ≠ .busRead := by cases e <;> simp [Event.instr] at hb ⊢
      obtain ⟨hend, hstream⟩ := ih hrest (ht.readAt hs he hr hb')
      rw [List.count_cons_of_ne hb, serve_cons, hstream, ht.reads hb']
      exact ⟨hend, rfl⟩

/-- Settles O26: the first DISPATCH latches the three counters, and the run after it keeps that snapshot. -/
theorem readoutStream : Obligations.ReadoutStream := by
  intro s es rest hnd hop h hkeeps
  have hlatch : effect Event.dispatch.instr s = s.clearNd.latch s.pos.c s.pos.b s.pos.a :=
    effect_eq_of_exec (exec_dispatch_of_encoderRead hnd hop)
  refine ⟨_, run_eq_serve (es := .dispatch :: es) h, rfl, ?_⟩
  rw [← hop] at hkeeps
  have hstream := (serve_reads_of_keepsSnapshot (s := s.clearNd.latch s.pos.c s.pos.b s.pos.a) (j := 0) hkeeps
    ⟨rfl, rfl⟩).2
  rw [serve_cons, hlatch, List.range_eq_range']
  exact hstream

end Sys2Proof.Machine
end

