-- ==== Sys2Proof/Proofs/Noninterference.lean ====
section
/-! PROOF. What the counters and the retained readings can affect (10_state.md sections 1 and 5). -/

namespace Sys2Proof.Machine

/-- Unless ENCODER_READ runs, a transition from other counters is the same one with other counters. -/
theorem Transition.withPos {s t : State} {i : Instr} (h : Transition s i t) (he : ¬RunsEncoderRead s i)
    (v : PerAxis Count) : ∃ v', Transition { s with pos := v } i { t with pos := v' } := by
  cases h with
  | motorSpeedSet a b c k => exact ⟨v, .motorSpeedSet a b c k⟩
  | setSolidColour r g b k => exact ⟨v, .setSolidColour r g b k⟩
  | encoderRead => exact absurd (.inl rfl) he
  | unrecognized o => exact ⟨v, .unrecognized o⟩
  | dispatchIdle hnd => exact ⟨v, .dispatchIdle hnd⟩
  | dispatchEncoderRead hnd hop => exact absurd (.inr ⟨rfl, hnd, hop⟩) he
  | dispatchEmit hnd hop => exact ⟨v, .dispatchEmit hnd hop⟩
  | busWrite w => exact ⟨v, .busWrite w⟩
  | busReadByte hcur => exact ⟨v, .busReadByte (s := { s with pos := v }) hcur⟩
  | busReadSentinel hcur => exact ⟨v, .busReadSentinel hcur⟩
  | sample p => exact ⟨(sampleWith Config.chip p { s with pos := v }).pos, .sample p⟩
  | diff a b => exact ⟨v, .diff a b⟩
  | reset => exact ⟨State.reset.pos, .reset⟩

/-- Of all operations SAMPLE alone reads the retained readings. -/
theorem Transition.withEnc {s t : State} {i : Instr} (h : Transition s i t) (hs : ∀ p, i ≠ .sample p)
    (v : PerAxis Quad) : ∃ v', Transition { s with enc := v } i { t with enc := v' } := by
  cases h with
  | motorSpeedSet a b c k => exact ⟨v, .motorSpeedSet a b c k⟩
  | setSolidColour r g b k => exact ⟨v, .setSolidColour r g b k⟩
  | encoderRead => exact ⟨v, .encoderRead⟩
  | unrecognized o => exact ⟨v, .unrecognized o⟩
  | dispatchIdle hnd => exact ⟨v, .dispatchIdle hnd⟩
  | dispatchEncoderRead hnd hop => exact ⟨v, .dispatchEncoderRead hnd hop⟩
  | dispatchEmit hnd hop => exact ⟨v, .dispatchEmit hnd hop⟩
  | busWrite w => exact ⟨v, .busWrite w⟩
  | busReadByte hcur => exact ⟨v, .busReadByte (s := { s with enc := v }) hcur⟩
  | busReadSentinel hcur => exact ⟨v, .busReadSentinel hcur⟩
  | sample p => exact absurd rfl (hs p)
  | diff a b => exact ⟨v, .diff a b⟩
  | reset => exact ⟨State.reset.enc, .reset⟩

/-- Settles O45: each run has the other's transition, with its own counters or readings. -/
theorem countersLeakOnlyThroughSnapshot : Obligations.CountersLeakOnlyThroughSnapshot := by
  refine ⟨fun i s v he hd => ?counters, fun i s v hs => ?readings⟩
  case counters =>
    obtain ⟨v', h⟩ := (transition_effect i s).withPos (not_or_intro he hd) v
    exact ⟨_, _, exec_eq_effect i s, h.exec_eq, rfl⟩
  case readings =>
    obtain ⟨v', h⟩ := (transition_effect i s).withEnc hs v
    exact ⟨_, _, exec_eq_effect i s, h.exec_eq, rfl⟩

end Sys2Proof.Machine
end

