-- ==== Sys2Proof/Proofs/HostCommands.lean ====
section
/-! PROOF. Each command as a host spells it, written and then dispatched (30_encoding.md section 6). -/

namespace Sys2Proof.Machine

open Sys2Proof.Safety

/-- A write and a DISPATCH run the command of the buffer the write leaves. -/
theorem run_busWrite_dispatch {s t : State} {w : List Byte} {f : Frame} {i : Instr} {rest : List Event}
    (h : s.schedule = .busWrite w :: .dispatch :: rest) (hf : (s.writeCmd w).cmd = f)
    (hi : decodeFrame Config.chip f = i) (ht : exec i { s with cmd := f, nd := true } = .next t) :
    Host.Core.run Sys2Proof.core 2 s = .next { t with schedule := rest } := by
  subst hi
  have hwrite := effect_eq_of_exec (exec_busWrite_of_cmd hf)
  have hdispatch := effect_eq_of_exec ((exec_dispatch_pending f s).trans ht)
  rw [← hdispatch, ← hwrite]
  exact run_eq_serve (es := [.busWrite w, .dispatch]) h

section
variable {s : State} {rest : List Event}

theorem run_motorSpeedSetBytes {b1 b2 b3 : Byte}
    (h : s.schedule = .busWrite (motorSpeedSetBytes Config.chip b1 b2 b3) :: .dispatch :: rest) :
    ∃ t : State, Host.Core.run Sys2Proof.core 2 s = .next t ∧ t.nd = false ∧ t.schedule = rest ∧
      t.events = s.events ++ [.motor 0 (speedOf b1), .motor 1 (speedOf b2), .motor 2 (speedOf b3),
        .lightMotorPattern b1 b2 b3] := by
  have hf := writeCmd_five_cmd s Config.chip.opcMotorSpeedSet b1 b2 b3
    (Config.chip.opcMotorSpeedSet ^^^ b1 ^^^ b2 ^^^ b3)
  exact ⟨_, run_busWrite_dispatch h hf (decodeFrame_of_motorSpeedSet rfl) (motorSpeedSetDrivesChannels b1 b2 b3 _), rfl,
    rfl, rfl⟩

theorem run_setSolidColourBytes {r g b : Byte}
    (h : s.schedule = .busWrite (setSolidColourBytes Config.chip r g b) :: .dispatch :: rest) :
    ∃ t : State, Host.Core.run Sys2Proof.core 2 s = .next t ∧ t.nd = false ∧ t.schedule = rest ∧
      t.events = s.events ++ [.lightSolid ⟨r, g, b⟩] := by
  have hf := writeCmd_five_cmd s Config.chip.opcSetSolidColour r g b (Config.chip.opcSetSolidColour ^^^ r ^^^ g ^^^ b)
  exact ⟨_, run_busWrite_dispatch h hf (decodeFrame_of_setSolidColour chip_admissible rfl)
    (exec_setSolidColour_of_good_checksum r g b _), rfl, rfl, rfl⟩

/-- The whole state a host's ENCODER_READ leaves: the one-byte write keeps the tail of the buffer, and the counters are
latched. -/
theorem run_encoderReadBytes (h : s.schedule = .busWrite (encoderReadBytes Config.chip) :: .dispatch :: rest) :
    Host.Core.run Sys2Proof.core 2 s = .next { s.latch s.pos.c s.pos.b s.pos.a with
      cmd := frameF5 Config.chip.opcEncoderRead s.cmd[1] s.cmd[2] s.cmd[3] s.cmd[4], nd := false, schedule := rest } :=
  run_busWrite_dispatch h (writeCmd_singleton_cmd s _) (decodeFrame_of_encoderRead chip_admissible rfl)
    (exec_encoderRead _)

theorem run_stopBytes (h : s.schedule = .busWrite stopBytes :: .dispatch :: rest) :
    ∃ t : State, Host.Core.run Sys2Proof.core 2 s = .next t ∧ t.nd = false ∧ t.schedule = rest ∧
      t.events = s.events ++ failsafeEvents Config.chip :=
  have hstop : Config.chip.isOpcode 0xFF = false := by decide
  ⟨_, run_busWrite_dispatch h (writeCmd_singleton_cmd s _) (decodeFrame_of_not_isOpcode hstop) (exec_unrecognized _ _),
    rfl, rfl, rfl⟩

/-- Reads keep the snapshot, whatever the buffer and the flag are. -/
theorem keepsSnapshot_replicate_busRead (cfg : Config) (op : Byte) (pending : Bool) (n : Nat) :
    KeepsSnapshot cfg op pending (List.replicate n .busRead) := by
  induction n with
  | zero => trivial
  | succ n ih => exact ih

/-- Six reads from the beginning return the whole snapshot: the first six bytes of the read-out stream. -/
theorem serve_six_busReads {t : State} {snap : Vector Byte 6} (ht : ReadAt snap 0 t) :
    (serve (List.replicate 6 .busRead) t).cur = 6 ∧
    (serve (List.replicate 6 .busRead) t).reads =
      t.reads ++ [snap[0], snap[1], snap[2], snap[3], snap[4], snap[5]] := by
  obtain ⟨⟨-, hcur⟩, hreads⟩ := serve_reads_of_keepsSnapshot (keepsSnapshot_replicate_busRead _ _ _ 6) ht
  rw [List.count_replicate_self] at hcur hreads
  exact ⟨hcur, hreads⟩

/-- READ_ENCODERS: ENCODER_READ and the six reads of its snapshot (30_encoding.md R94). -/
theorem run_readEncoders (h : s.schedule =
    .busWrite (encoderReadBytes Config.chip) :: .dispatch :: (List.replicate 6 .busRead ++ rest)) :
    ∃ t : State, Host.Core.run Sys2Proof.core 8 s = .next t ∧ t.schedule = rest ∧ t.cur = 6 ∧
      t.reads = s.reads ++
        [hiByte s.pos.c, loByte s.pos.c, hiByte s.pos.b, loByte s.pos.b, hiByte s.pos.a, loByte s.pos.a] := by
  obtain ⟨u, hrun, hschedule, hu, hreads⟩ : ∃ u : State, Host.Core.run Sys2Proof.core 2 s = .next u ∧
      u.schedule = List.replicate 6 .busRead ++ rest ∧ ReadAt (snapshotBytes s.pos.c s.pos.b s.pos.a) 0 u ∧
      u.reads = s.reads := ⟨_, run_encoderReadBytes h, rfl, ⟨rfl, rfl⟩, rfl⟩
  obtain ⟨hcur, hstream⟩ := serve_six_busReads hu
  have hsix := run_eq_serve hschedule
  rw [List.length_replicate] at hsix
  rw [hreads] at hstream
  generalize serve (List.replicate 6 .busRead) u = t at hsix hcur hstream
  exact ⟨_, (run_add 2 6 hrun).trans hsix, rfl, hcur, hstream⟩

end

/-- Settles O43: one lemma per spelling; a signed speed is read back from its biased byte. -/
theorem hostCommandsExecute : Obligations.HostCommandsExecute := by
  refine fun s rest => ⟨fun b1 b2 b3 => run_motorSpeedSetBytes, fun s0 s1 s2 h0 h1 h2 h => ?signed,
    fun r g b => run_setSolidColourBytes, fun h => ⟨_, run_encoderReadBytes h, rfl, rfl, rfl, rfl, rfl, rfl⟩,
    run_readEncoders, run_stopBytes⟩
  case signed =>
    have hrun := run_motorSpeedSetBytes h
    rwa [speedOf_ofInt h0.1 h0.2, speedOf_ofInt h1.1 h1.2, speedOf_ofInt h2.1 h2.2] at hrun

end Sys2Proof.Machine
end
